-- ==== Sys2Proof/Word.lean ====
section
/-! DEFINITION. The word types of the oscillator bank (spec 00_scope.md R10, R11). -/

namespace Sys2Proof

/-- A 32-bit word: a command word (R10 CW), a phase or tuning word (PW), a frequency (FW), a frame
word (R131) or a read-back value (R150). -/
abbrev Word := BitVec 32

/-- An 8-bit byte, for platforms that serialize words (R51), and a read-back word address (R10 AW). -/
abbrev Byte := BitVec 8

/-- A voice index 0..16 (R10 NV = 17). -/
abbrev Voice := Fin 17

/-- One 32-bit register per voice: the arrays FREQ, FTW and PH (R23). -/
abbrev VoiceRegs := Vector Word 17

end Sys2Proof
end

