-- ==== Sys2Proof/Machine/Operands.lean ====
section
/-! DEFINITION. Bit fields, sign extension, clamping, counting and byte order: the conventions of
00_scope.md R11 and R12, the word layout of 30_encoding.md R71 and R72, the byte serialization of
20_memory.md R51. -/

namespace Sys2Proof.Machine

open Sys2Proof

/-- `v[hi:lo]`: bits hi down to lo, read as an unsigned number (R11). -/
def bits {n : Nat} (v : BitVec n) (hi lo : Nat) : Nat :=
  (v.toNat >>> lo) % 2 ^ (hi + 1 - lo)

/-- `sext_24(v)` for v < 2^24: v - 2^24 if v[23] = 1, else v (R12). -/
def sext24 (v : Nat) : Int :=
  if 8388608 ≤ v then (v : Int) - 16777216 else (v : Int)

/-- `trunc_24(v)` of an integer: v mod 2^24 (R12). -/
def trunc24 (v : Int) : Nat :=
  (v % 16777216).toNat

/-- `clamp(v, lo, hi)`: lo if v < lo, hi if v > hi, else v (R12). -/
def clamp (v lo hi : Int) : Int :=
  if v < lo then lo else if hi < v then hi else v

/-- `popcount(m)`: the number of one bits (R12). -/
def popcount {n : Nat} (m : BitVec n) : Nat :=
  (List.range n).countP fun k => m.getLsbD k

/-- The mask with bit `i` set to `b` and every other bit kept (`ACT[i] <- b`, R14, R63). -/
def setBit {n : Nat} (m : BitVec n) (i : Nat) (b : Bool) : BitVec n :=
  if b then m ||| (1#n <<< i) else m &&& ~~~(1#n <<< i)

/-- OP = w[31:24] (R71). -/
def opcode (w : Word) : Nat := bits w 31 24

/-- ARG = w[23:0] (R71). -/
def arg (w : Word) : Nat := bits w 23 0

/-- VOICE's IDX = w[7:0] (R71, R72). -/
def voiceIdx (w : Word) : Nat := bits w 7 0

/-- VOICE's ON = w[8] (R71, R72). -/
def voiceOn (w : Word) : Bool := w.getLsbD 8

/-- The command word {OP, ARG} (R71). -/
def commandWord (op arg : Nat) : Word :=
  BitVec.ofNat 32 (op * 16777216 + arg)

/-- The frame word {R, L} of one sample: both channels carry trunc_16(s) (R131). -/
def frameWord (s : Int) : Word :=
  BitVec.ofInt 16 s ++ BitVec.ofInt 16 s

/-- A word as four bytes, little-endian: byte 0 holds bits [7:0] (R51). -/
def wordBytes (w : Word) : List Byte :=
  [w.extractLsb' 0 8, w.extractLsb' 8 8, w.extractLsb' 16 8, w.extractLsb' 24 8]

/-- The word four bytes carry, little-endian (R51). -/
def bytesWord (b0 b1 b2 b3 : Byte) : Word :=
  b3 ++ b2 ++ b1 ++ b0

end Sys2Proof.Machine
end

