-- ==== Sys2Proof/Config.lean ====
section
/-! DEFINITION. The bank's command ports, the turns its agents take, and the one thing no rule fixes:
the order of the turns (spec 00_scope.md R9; 20_memory.md R57, R61). The OPEN build parameters
FREQ_TABLE and OUTQ_DEPTH (R10) are fields of State (assumption log 1). -/

namespace Sys2Proof

/-- The two command ports (30_encoding.md R70). The read-back port is no command port: its requests
are turns of HOST. -/
inductive Port where
  /-- Port E, written by the host audio engine, accepted by ENG. -/
  | engine
  /-- Port C, written by the host UI layer, accepted by CTL. -/
  | control
deriving DecidableEq, Repr, Inhabited

/-- One turn of one agent (R9). Each turn is one atomic step (R8, R53). -/
inductive Turn where
  /-- ENG accepts a word, performs one frame step, or holds (41_voice_bank.md R121). -/
  | eng
  /-- CTL accepts a word, if one is offered (R128). -/
  | ctl
  /-- HOST reads the register at a word address through the read-back port (42_readback.md R150). -/
  | read (addr : Byte)
  /-- HOST removes the head frame of OUTQ, if there is one (R133). -/
  | pop
  /-- HOST offers a word on a command port; it has no effect until the port accepts it (R60). -/
  | offer (p : Port) (w : Word)
  /-- The reset input strikes (70_reset_and_hazards.md R200). The flags say whether it strikes while
  ENG, and while CTL, is accepting the word offered first: that word is then discarded. -/
  | reset (midEng midCtl : Bool)
deriving DecidableEq, Repr, Inhabited

/-- FREE VALUE: the agent that moves when the script of turns is empty. The spec fixes no order
between the agents (R57, R61, D16, D28), so nothing here can be evaluated or proved of it
(assumption log 2). -/
opaque Config.freeTurn : Nat → Turn

end Sys2Proof
end

