-- ==== Sys2Proof/Syntax.lean ====
section
/-! DEFINITION. The bank's instructions: one constructor per row of spec/opcode_table.json
(30_encoding.md R73; 42_readback.md R150). Operands are the exact integers of R72. -/

namespace Sys2Proof

/-- A command, or a read-back request. -/
inductive Instr where
  /-- NOP: no operation, on either command port (R127). -/
  | nop
  /-- CFG: configure the sample rate, in samples per second (R122). -/
  | cfg (rate : Nat)
  /-- RENDER: render `count` frames (R126). -/
  | render (count : Nat)
  /-- VOICE: switch voice `idx` on or off (R123). -/
  | voice (idx : Nat) (on : Bool)
  /-- GAIN: set the gain, in Q8.16 (R124). -/
  | gain (gv : Int)
  /-- RELALL: release all voices (R125). -/
  | relall
  /-- RD: read the register at word address `addr` (R150). -/
  | rd (addr : Nat)
deriving DecidableEq, Repr

end Sys2Proof
end

