-- ==== Sys2Proof/WellFormed.lean ====
section
/-! DEFINITION. Which instructions are well formed: the operand ranges of 30_encoding.md R72 and of
the read-back address (42_readback.md R150). -/

namespace Sys2Proof

/-- Every operand lies in the range its bit field can spell (R72, R150). -/
def Instr.wf : Instr → Bool
  | .nop => true
  | .cfg rate => decide (rate < 16777216)
  | .render count => decide (count < 16777216)
  | .voice idx _ => decide (idx < 256)
  | .gain gv => decide (-8388608 ≤ gv) && decide (gv ≤ 8388607)
  | .relall => true
  | .rd addr => decide (addr < 256)

end Sys2Proof
end

