-- ==== Sys2Proof/Decode.lean ====
section
/-! DEFINITION. Decoding of command words and read-back requests, and the encoder (30_encoding.md R71
to R77; 42_readback.md R150). Decoding is total: a word that is no command of its port is IGNORED, by
name (R74 to R76). -/

namespace Sys2Proof

open Sys2Proof.Machine

/-- Why a word is IGNORED. -/
inductive Ignored where
  /-- The opcode is in no row of R73 (R75). -/
  | reservedOpcode
  /-- The opcode is a command of the other port (R76). -/
  | wrongPort
deriving DecidableEq, Repr

/-- What a port makes of a word (R74). -/
inductive Decoded where
  | command (i : Instr)
  | ignored (why : Ignored)
deriving DecidableEq, Repr

/-- What an instruction is sent as: a command word, or a read-back request (R70). -/
inductive Encoded where
  | word (w : Word)
  | readAddr (a : Byte)
deriving DecidableEq, Repr

/-- The opcode map of R73, with the operands assembled by R72; none for a reserved opcode (R75). -/
def decodeCommand (w : Word) : Option Instr :=
  if opcode w = 0x00 then some .nop
  else if opcode w = 0x01 then some (.cfg (arg w))
  else if opcode w = 0x02 then some (.render (arg w))
  else if opcode w = 0x10 then some (.voice (voiceIdx w) (voiceOn w))
  else if opcode w = 0x11 then some (.gain (sext24 (arg w)))
  else if opcode w = 0x12 then some .relall
  else none

/-- The ports each opcode is legal on (R70, R73). RD is a request of the read-back port. -/
def accepts : Port → Instr → Bool
  | _, .nop => true
  | .engine, .cfg _ => true
  | .engine, .render _ => true
  | .control, .voice _ _ => true
  | .control, .gain _ => true
  | .control, .relall => true
  | .engine, .voice _ _ => false
  | .engine, .gain _ => false
  | .engine, .relall => false
  | .control, .cfg _ => false
  | .control, .render _ => false
  | .engine, .rd _ => false
  | .control, .rd _ => false

/-- decode(P, w) of R74. -/
def decode (p : Port) (w : Word) : Decoded :=
  match decodeCommand w with
  | none => .ignored .reservedOpcode
  | some i => if accepts p i then .command i else .ignored .wrongPort

/-- A read-back request is an 8-bit word address (R150). -/
def decodeRead (a : Byte) : Instr := .rd a.toNat

/-- The first command of a byte stream that serializes words little-endian, and the bytes after it;
none while the word is not whole (R51, R79). -/
def decodeBytes (p : Port) : List Byte → Option (Decoded × List Byte)
  | b0 :: b1 :: b2 :: b3 :: rest => some (decode p (bytesWord b0 b1 b2 b3), rest)
  | _ => none

/-- The instruction's word, or its read-back request, with every ignored bit 0 (R71 to R73, R77). -/
def encode : Instr → Encoded
  | .nop => .word (commandWord 0x00 0)
  | .cfg rate => .word (commandWord 0x01 rate)
  | .render count => .word (commandWord 0x02 count)
  | .voice idx on => .word (commandWord 0x10 ((if on then 256 else 0) + idx))
  | .gain gv => .word (commandWord 0x11 (trunc24 gv))
  | .relall => .word (commandWord 0x12 0)
  | .rd addr => .readAddr (BitVec.ofNat 8 addr)

/-- The port that carries a command word: the engine port for the words only it accepts, else the
control port (R73). -/
def portFor (w : Word) : Port :=
  match decode .control w, decode .engine w with
  | .ignored _, .command _ => .engine
  | _, _ => .control

/-- The instruction the decoder reads from an instruction of spec/opcode_table.json: 8 bits are a
read-back request, 32 bits a command word on the port that accepts it (assumption log 10). -/
def decodeTableWord (nbits w : Nat) : Option Instr :=
  if nbits = 8 then some (decodeRead (BitVec.ofNat 8 w))
  else if nbits = 32 then
    match decode (portFor (BitVec.ofNat 32 w)) (BitVec.ofNat 32 w) with
    | .command i => some i
    | .ignored _ => none
  else none

end Sys2Proof
end

