-- ==== Sys2Proof/Machine/State.lean ====
section
/-! DEFINITION. The machine's state (10_state.md R23), its faults (none: 60_exceptions.md R170) and the
state after reset (70_reset_and_hazards.md R200, R201). -/

namespace Sys2Proof.Machine

open Sys2Proof

/-- The faults of the bank: none. "No command, frame step or read can fault" (R170), so the type has no
constructor and no step can answer a fault (exact: assumption log 11). -/
inductive Fault where
deriving DecidableEq, Repr

/-- Why a step has no meaning. -/
inductive Refusal where
  /-- Raised by an arm of `exec` whose instruction has no meaning yet: no arm of this model does. It is
  safe: the machine stops where the hardware goes on. -/
  | notModelled (mnemonic : String)
deriving DecidableEq, Repr

/-- The state: the bank's stored elements, its build constants, and the HOST agent's side. -/
structure State where
  /-- SR, the sample rate in samples per second; 0 means unconfigured (R24). -/
  sr : BitVec 24
  /-- FTW[0..16], the frequency tuning words, UQ0.32 turns per sample (R25). -/
  ftw : VoiceRegs
  /-- PH[0..16], the phase accumulators, UQ0.32 turns (R26). -/
  ph : VoiceRegs
  /-- ACT, the active-voice mask, bit i for voice i (R30). -/
  act : BitVec 17
  /-- G, the gain, UQ1.16 in 0..65536 (R31). -/
  gain : BitVec 17
  /-- REM, the frames of the current render not yet produced (R32). -/
  rem : BitVec 24
  /-- OUTQ, the output frame queue, head first (R33). -/
  outq : List Word
  /-- FREQ[0..16], the read-only frequency ROM, UQ16.16 Hz: the OPEN build parameter FREQ_TABLE (R27).
  No turn changes it. -/
  freq : VoiceRegs
  /-- OUTQ_DEPTH, the capacity of OUTQ in frames: an OPEN build parameter, at least 1 (R10, R33). No turn
  changes it. -/
  outqDepth : Nat
  /-- HOST: the words offered on the engine port and not yet accepted, oldest first (R37, R60). -/
  engIn : List Word
  /-- HOST: the words offered on the control port and not yet accepted, oldest first (R37, R60). -/
  ctlIn : List Word
  /-- HOST: the frames popped so far, oldest first (R37, R133). -/
  popped : List Word
  /-- HOST: the values the read-back port has returned so far, oldest first (R59, R150). -/
  reads : List Word
  /-- The model's script of turns to come, next one first; when it is empty the next turn is a free
  value (assumption log 2). -/
  sched : List Turn
  /-- The model's count of the turns taken from the free value (assumption log 2). -/
  turns : Nat
deriving DecidableEq, Repr

/-- The state after reset of a bank with the given build constants, before the host has done anything:
every stored element is zero or empty (R200, R201). -/
def State.resetOf (freq : VoiceRegs) (outqDepth : Nat) : State where
  sr := 0
  ftw := Vector.replicate 17 0
  ph := Vector.replicate 17 0
  act := 0
  gain := 0
  rem := 0
  outq := []
  freq := freq
  outqDepth := outqDepth
  engIn := []
  ctlIn := []
  popped := []
  reads := []
  sched := []
  turns := 0

/-- The machine right after reset, with the default FREQ_TABLE of R28 and a queue of 16 frames
(DESIGN CHOICE for the two OPEN parameters: assumption log 1). -/
def State.reset : State := State.resetOf defaultFreq 16

end Sys2Proof.Machine
end

