-- ==== Sys2Proof/Machine/Ops.lean ====
section
/-! DEFINITION. The named operations on the state: one per element an agent may write, the queues, the
reset of the bank (70_reset_and_hazards.md R200), and the choice of the next turn. The bank takes no
exception and returns from none (60_exceptions.md R170, R174, R175), so no operation does. -/

namespace Sys2Proof.Machine

open Sys2Proof

/-- `SR <- v` (R24). -/
def State.setSr (s : State) (v : BitVec 24) : State := { s with sr := v }

/-- `FTW[i] <- v` (R25). -/
def State.setFtw (s : State) (i : Voice) (v : Word) : State := { s with ftw := s.ftw.set i v }

/-- `PH[i] <- v` (R26). -/
def State.setPh (s : State) (i : Voice) (v : Word) : State := { s with ph := s.ph.set i v }

/-- `ACT <- v` (R30). -/
def State.setAct (s : State) (v : BitVec 17) : State := { s with act := v }

/-- `G <- v` (R31). -/
def State.setGain (s : State) (v : BitVec 17) : State := { s with gain := v }

/-- `REM <- v` (R32). -/
def State.setRem (s : State) (v : BitVec 24) : State := { s with rem := v }

/-- `Enqueue(OUTQ, w)` (R14, R33). -/
def State.enqueue (s : State) (w : Word) : State := { s with outq := s.outq ++ [w] }

/-- HOST's pop: the head frame leaves OUTQ; an empty OUTQ has none to give (R133). -/
def State.popFrame (s : State) : State :=
  match s.outq with
  | [] => s
  | w :: rest => { s with outq := rest, popped := s.popped ++ [w] }

/-- The read-back port returns a value to HOST; nothing in the bank changes (R150). -/
def State.returnRead (s : State) (v : Word) : State := { s with reads := s.reads ++ [v] }

/-- HOST offers a word on a command port, behind the words already waiting there (R55, R60). -/
def State.offerWord (s : State) (p : Port) (w : Word) : State :=
  match p with
  | .engine => { s with engIn := s.engIn ++ [w] }
  | .control => { s with ctlIn := s.ctlIn ++ [w] }

/-- The words waiting on the engine port become `ws`. -/
def State.setEngIn (s : State) (ws : List Word) : State := { s with engIn := ws }

/-- The words waiting on the control port become `ws`. -/
def State.setCtlIn (s : State) (ws : List Word) : State := { s with ctlIn := ws }

/-- Reset of the bank: every stored element takes its reset value; the build constants, and what the host
has offered, popped and read, stay (R200). -/
def State.resetBank (s : State) : State :=
  { s with
    sr := 0
    ftw := Vector.replicate 17 0
    ph := Vector.replicate 17 0
    act := 0
    gain := 0
    rem := 0
    outq := [] }

/-- The turn taken next: the head of the script, or the free turn (R57, R61; assumption log 2). -/
def State.nextTurn (s : State) : Turn :=
  match s.sched with
  | t :: _ => t
  | [] => Config.freeTurn s.turns

/-- The state once the next turn is chosen. -/
def State.takeTurn (s : State) : State :=
  match s.sched with
  | _ :: rest => { s with sched := rest }
  | [] => { s with turns := s.turns + 1 }

end Sys2Proof.Machine
end

