-- ==== Sys2Proof/Machine/Control.lean ====
section
/-! DEFINITION. The commands of the control port: VOICE, GAIN and RELALL (41_voice_bank.md R123 to R125). -/

namespace Sys2Proof.Machine

open Sys2Proof

/-- VOICE: `ACT[idx] <- on` for idx <= 16; any other index is ignored, not clamped (R123, D35). -/
def execVoice (idx : Nat) (on : Bool) (s : State) : Host.Outcome State Fault Refusal :=
  if idx ≤ 16 then .next (s.setAct (setBit s.act idx on)) else .next s

/-- GAIN: `G <- clamp(gv, 0, 65536)` (R124). -/
def execGain (gv : Int) (s : State) : Host.Outcome State Fault Refusal :=
  .next (s.setGain (BitVec.ofInt 17 (clamp gv 0 65536)))

/-- RELALL: `ACT <- 0` (R125). -/
def execRelall (s : State) : Host.Outcome State Fault Refusal := .next (s.setAct 0#17)

end Sys2Proof.Machine
end

