-- ==== Sys2Proof/Machine/Oscillator.lean ====
section
/-! DEFINITION. The oscillator datapath (40_oscillator.md R100 to R107): the operations no command names,
which CFG and the frame step run. -/

namespace Sys2Proof.Machine

open Sys2Proof

/-- OSC.SETRATE(rate): `SR <- rate`; no tuning word is recomputed by it (R101). -/
def oscSetRate (rate : Nat) (s : State) : State := s.setSr (BitVec.ofNat 24 rate)

/-- The tuning word of a frequency at a sample rate: FREQ * 2^16 / SR rounded to nearest, ties up, low 32
bits kept; 0 while unconfigured (R102, R103). -/
def tuningWord (f : Word) (sr : BitVec 24) : Word :=
  if sr = 0#24 then 0#32
  else BitVec.ofNat 32 ((f.toNat * 65536 + sr.toNat / 2) / sr.toNat)

/-- OSC.SETFREQ(i): `FTW[i]` from FREQ[i] and SR (R102). -/
def oscSetFreq (s : State) (i : Voice) : State := s.setFtw i (tuningWord s.freq[i] s.sr)

/-- OSC.SINE(p): the top 10 phase bits index a full cycle rebuilt from the quarter-wave ROM (R106). -/
def oscSine (p : Word) : Int :=
  let idx := bits p 31 22
  let q := idx / 256
  let j := idx % 256
  if q = 0 then (sinq j : Int)
  else if q = 1 then (sinq (256 - j) : Int)
  else if q = 2 then -(sinq j : Int)
  else -(sinq (256 - j) : Int)

/-- OSC.TICK(i): the sample of the phase before the advance, then `PH[i]` advances modulo 2^32 (R104). -/
def oscTick (i : Voice) (s : State) : Int × State :=
  (oscSine s.ph[i], s.setPh i (s.ph[i] + s.ftw[i]))

end Sys2Proof.Machine
end

