-- ==== Sys2Proof/Machine/Engine.lean ====
section
/-! DEFINITION. The commands of the engine port: NOP, CFG and RENDER (41_voice_bank.md R122, R126, R127).
ENG accepts them only while REM = 0: that is the sequencer's rule (R121, Machine/Sequencers.lean). -/

namespace Sys2Proof.Machine

open Sys2Proof

/-- NOP, on either command port: no state changes (R127). -/
def execNop (s : State) : Host.Outcome State Fault Refusal := .next s

/-- CFG: OSC.SETRATE(rate), then OSC.SETFREQ(i) for i in 0..16, in one step (R122, R63). -/
def execCfg (rate : Nat) (s : State) : Host.Outcome State Fault Refusal :=
  .next ((List.finRange 17).foldl oscSetFreq (oscSetRate rate s))

/-- RENDER: `REM <- n`; the frames are ENG's later steps (R126). -/
def execRender (count : Nat) (s : State) : Host.Outcome State Fault Refusal :=
  .next (s.setRem (BitVec.ofNat 24 count))

end Sys2Proof.Machine
end

