-- ==== Sys2Proof/Machine/Flags.lean ====
section
/-! DEFINITION. The bits computed from the state: the fields of STATUS (10_state.md R35), NACT (R36) and
QCOUNT (42_readback.md R151). The bank has no flags that a command reads or writes (R22). -/

namespace Sys2Proof.Machine

open Sys2Proof

/-- STATUS.CFGD: SR is not 0. -/
def State.cfgd (s : State) : Bool := decide (s.sr ≠ 0#24)

/-- STATUS.BUSY: a render is in progress. -/
def State.busy (s : State) : Bool := decide (s.rem ≠ 0#24)

/-- STATUS.QFULL: OUTQ holds OUTQ_DEPTH frames. -/
def State.qfull (s : State) : Bool := decide (s.outq.length = s.outqDepth)

/-- STATUS.QEMPTY: OUTQ is empty. -/
def State.qempty (s : State) : Bool := s.outq.isEmpty

/-- STATUS = {28'b0, QEMPTY, QFULL, BUSY, CFGD} (R35, R151). -/
def State.status (s : State) : Word :=
  0#28 ++ BitVec.ofBool s.qempty ++ BitVec.ofBool s.qfull ++ BitVec.ofBool s.busy ++
    BitVec.ofBool s.cfgd

/-- nActive = popcount(ACT) (R36, R130). -/
def State.nActive (s : State) : Nat := popcount s.act

/-- NACT, zero-extended (R36). -/
def State.nact (s : State) : Word := BitVec.ofNat 32 s.nActive

/-- QCOUNT: the number of frames in OUTQ (R151). -/
def State.qcount (s : State) : Word := BitVec.ofNat 32 s.outq.length

end Sys2Proof.Machine
end

