-- ==== Sys2Proof/Machine/Readback.lean ====
section
/-! DEFINITION. The read-back port (42_readback.md R150 to R153). -/

namespace Sys2Proof.Machine

open Sys2Proof

/-- Entry k of an array of voice registers; 0 past voice 16, where the map is reserved (R151, R152). -/
def voiceReg (v : VoiceRegs) (k : Nat) : Word :=
  if h : k < 17 then v[k] else 0#32

/-- The low part of the register map: 0x00..0x0F (R151). -/
def lowReg (s : State) (a : Nat) : Word :=
  if a = 0x00 then idValue
  else if a = 0x01 then s.status
  else if a = 0x02 then s.sr.setWidth 32
  else if a = 0x03 then s.gain.setWidth 32
  else if a = 0x04 then s.act.setWidth 32
  else if a = 0x05 then s.rem.setWidth 32
  else if a = 0x06 then s.nact
  else if a = 0x07 then s.qcount
  else 0#32

/-- value(a) of R150: the register map of R151; reserved addresses read 0 (R152). -/
def regRead (s : State) (a : Nat) : Word :=
  if a < 0x10 then lowReg s a
  else if a < 0x30 then voiceReg s.freq (a - 0x10)
  else if a < 0x50 then voiceReg s.ftw (a - 0x30)
  else voiceReg s.ph (a - 0x50)

/-- RD: the port returns value(addr) to the host; nothing in the bank changes (R150). -/
def execRd (addr : Nat) (s : State) : Host.Outcome State Fault Refusal :=
  .next (s.returnRead (regRead s addr))

end Sys2Proof.Machine
end

