-- ==== Sys2Proof/Machine/Dispatch.lean ====
section
/-! DEFINITION. The meaning of each instruction, one arm per constructor (30_encoding.md R73). -/

namespace Sys2Proof.Machine

open Sys2Proof

def exec (i : Instr) (s : State) : Host.Outcome State Fault Refusal :=
  match i with
  | .nop => Sys2Proof.Machine.execNop s
  | .cfg rate => Sys2Proof.Machine.execCfg rate s
  | .render count => Sys2Proof.Machine.execRender count s
  | .voice idx on => Sys2Proof.Machine.execVoice idx on s
  | .gain gv => Sys2Proof.Machine.execGain gv s
  | .relall => Sys2Proof.Machine.execRelall s
  | .rd addr => Sys2Proof.Machine.execRd addr s

end Sys2Proof.Machine
end

