-- ==== Sys2Proof/Machine/Mixer.lean ====
section
/-! DEFINITION. The frame step: sum, normalize, scale, enqueue (41_voice_bank.md R130, R131). -/

namespace Sys2Proof.Machine

open Sys2Proof

/-- One turn of the summing loop: an active voice ticks and its sample is added (R130). -/
def tickIfActive (acc : Int × State) (i : Voice) : Int × State :=
  if acc.2.act.getLsbD i.val then
    let r := oscTick i acc.2
    (acc.1 + r.1, r.2)
  else acc

/-- The summing loop over voices 0..16: the total, and the state with every active phase advanced (R130). -/
def tickActive (s : State) : Int × State :=
  (List.finRange 17).foldl tickIfActive (0, s)

/-- total * gain / nActive, truncated toward zero (R130, D14). -/
def scaleMix (total : Int) (g : BitVec 17) (n : Nat) : Int :=
  let p := total * (g.toNat : Int)
  p.sign * ((p.natAbs / (n * 65536) : Nat) : Int)

/-- The frame's sample, and the state once the voices have ticked: silence, with no tick, while
unconfigured or with no active voice (R130). -/
def mixFrame (s : State) : Int × State :=
  if s.sr = 0#24 ∨ s.act = 0#17 then (0, s)
  else
    let r := tickActive s
    (scaleMix r.1 s.gain s.nActive, r.2)

/-- The frame step: one frame word enters OUTQ and REM counts down (R130, R131). -/
def frameStep (s : State) : State :=
  let r := mixFrame s
  (r.2.enqueue (frameWord r.1)).setRem (r.2.rem - 1#24)

end Sys2Proof.Machine
end

