-- ==== Sys2Proof/Machine/Sequencers.lean ====
section
/-! DEFINITION. What each agent does in its turn: the sequencers ENG and CTL (41_voice_bank.md R121, R128),
HOST's reads, pops and offers (R150, R133, R60), and the reset input (70_reset_and_hazards.md R200). -/

namespace Sys2Proof.Machine

open Sys2Proof

/-- A port accepts a word: the step that accepts it applies it, and an IGNORED word changes nothing
(R60, R74 to R76). -/
def acceptWord (p : Port) (w : Word) (s : State) : Host.Outcome State Fault Refusal :=
  match decode p w with
  | .command i => exec i s
  | .ignored _ => .next s

/-- ENG's turn (R121): with REM = 0 it accepts the next engine-port word; with REM > 0 it performs one frame
step if OUTQ has room. Otherwise it holds, or idles, and nothing changes. -/
def engTurn (s : State) : Host.Outcome State Fault Refusal :=
  if s.rem = 0#24 then
    match s.engIn with
    | [] => .next s
    | w :: rest => acceptWord .engine w (s.setEngIn rest)
  else if s.outq.length < s.outqDepth then .next (frameStep s)
  else .next s

/-- CTL's turn (R128): it accepts the next control-port word, in any state. -/
def ctlTurn (s : State) : Host.Outcome State Fault Refusal :=
  match s.ctlIn with
  | [] => .next s
  | w :: rest => acceptWord .control w (s.setCtlIn rest)

/-- HOST's read: the request is decoded and answered from the state between two steps (R59, R150). -/
def readTurn (a : Byte) (s : State) : Host.Outcome State Fault Refusal := exec (decodeRead a) s

/-- The words still waiting on a port once reset has struck while the first of them was being accepted:
that word is discarded (R200). -/
def dropAccepting (accepting : Bool) (ws : List Word) : List Word :=
  if accepting then ws.tail else ws

/-- Reset strikes (R200). ENG can be accepting a word only while REM = 0 (R121). -/
def resetTurn (midEng midCtl : Bool) (s : State) : State :=
  ((s.resetBank).setEngIn (dropAccepting (midEng && decide (s.rem = 0#24)) s.engIn)).setCtlIn
    (dropAccepting midCtl s.ctlIn)

/-- One turn of one agent: one atomic step (R8, R53, R61). -/
def runTurn : Turn → State → Host.Outcome State Fault Refusal
  | .eng, s => engTurn s
  | .ctl, s => ctlTurn s
  | .read a, s => readTurn a s
  | .pop, s => .next s.popFrame
  | .offer p w, s => .next (s.offerWord p w)
  | .reset midEng midCtl, s => .next (resetTurn midEng midCtl s)

/-- The next turn is chosen and run. -/
def runNextTurn (s : State) : Host.Outcome State Fault Refusal := runTurn s.nextTurn s.takeTurn

/-- The state in which the very next step runs one instruction of the opcode table: a read-back request
becomes the next turn; a command word becomes the first one waiting on its port, and that port's
sequencer takes the next turn. ENG accepts only while REM = 0, so an engine word clears REM
(assumption log 10). -/
def placeWord (s : State) (nbits w : Nat) : State :=
  if nbits = 8 then { s with sched := .read (BitVec.ofNat 8 w) :: s.sched }
  else
    match portFor (BitVec.ofNat 32 w) with
    | .engine =>
      { s with rem := 0, engIn := BitVec.ofNat 32 w :: s.engIn, sched := .eng :: s.sched }
    | .control => { s with ctlIn := BitVec.ofNat 32 w :: s.ctlIn, sched := .ctl :: s.sched }

end Sys2Proof.Machine
end

