-- ==== Sys2Proof/Machine/Step.lean ====
section
/-! DEFINITION. One step of the machine: one atomic turn of one agent (00_scope.md R8, R9). -/

namespace Sys2Proof.Machine

open Sys2Proof

/-- One step: the next turn, run whole (R8). -/
def step (s : State) : Host.Outcome State Fault Refusal := runNextTurn s

/-- `s` with an instruction of the opcode table placed so that the next step runs exactly it
(assumption logs 3 and 10). -/
def State.withFetchWord (s : State) (nbits w : Nat) : State := placeWord s nbits w

end Sys2Proof.Machine
end

