-- ==== Sys2Proof/Machine/Assembler.lean ====
section
/-! DEFINITION. The assembler's forms and pseudo-instructions (30_encoding.md R81, R82), from a line of
characters to the word and the port. What R81 leaves to the reader of a line (white space, the spelling
of numbers) is in assumption log 14. -/

namespace Sys2Proof.Machine

open Sys2Proof

/-- One assembly statement: the forms of R81 and the pseudo-instructions of R82. -/
inductive AsmStmt where
  | nop
  | cfg (rate : Int)
  | render (n : Int)
  | voice (idx : Int) (on : Bool)
  /-- `GAIN g` with g = num / den, den > 0. -/
  | gain (num : Int) (den : Nat)
  | gainRaw (v : Int)
  | relall
  | word (w : Int)
  | rd (addr : Int)
  | von (idx : Int)
  | voff (idx : Int)
  | mute
  | unity
  | uncfg
deriving DecidableEq, Repr

/-- What a line assembles to: a command word for a port, or a read-back request. -/
inductive AsmOut where
  | command (p : Port) (w : Word)
  | read (a : Byte)
deriving DecidableEq, Repr

/-- The pseudo-instructions' expansions (R82). -/
def AsmStmt.expand : AsmStmt → AsmStmt
  | .von idx => .voice idx true
  | .voff idx => .voice idx false
  | .mute => .gain 0 1
  | .unity => .gain 1 1
  | .uncfg => .cfg 0
  | st => st

/-- The operand of `GAIN g`: floor(g * 65536 + 1/2) (R81). -/
def gainOperand (num : Int) (den : Nat) : Int :=
  (num * 131072 + (den : Int)) / (2 * (den : Int))

/-- A value, if it lies in a range (R81). -/
def inRange (lo hi v : Int) : Option Nat :=
  if lo ≤ v ∧ v ≤ hi then some v.toNat else none

/-- The command word on a port: the line's own tag, or the default (R81). -/
def tagged (tag : Option Port) (dflt : Port) (w : Word) : AsmOut :=
  .command (tag.getD dflt) w

/-- The word a statement encodes, and its port; none is an assembly error (R81). -/
def assembleStmt (tag : Option Port) (st : AsmStmt) : Option AsmOut :=
  match st.expand with
  | .nop => tag.map fun p => .command p (commandWord 0x00 0)
  | .cfg rate =>
    (inRange 0 16777215 rate).map fun r => tagged tag .engine (commandWord 0x01 r)
  | .render n =>
    (inRange 0 16777215 n).map fun n => tagged tag .engine (commandWord 0x02 n)
  | .voice idx on =>
    (inRange 0 255 idx).map fun i =>
      tagged tag .control (commandWord 0x10 ((if on then 256 else 0) + i))
  | .gain num den =>
    let v := gainOperand num den
    if -8388608 ≤ v ∧ v ≤ 8388607 then
      some (tagged tag .control (commandWord 0x11 (trunc24 v)))
    else none
  | .gainRaw v =>
    if -8388608 ≤ v ∧ v ≤ 16777215 then
      some (tagged tag .control (commandWord 0x11 (trunc24 v)))
    else none
  | .relall => some (tagged tag .control (commandWord 0x12 0))
  | .word w =>
    match tag, inRange 0 4294967295 w with
    | some p, some n => some (.command p (BitVec.ofNat 32 n))
    | _, _ => none
  | .rd addr =>
    match tag with
    | none => (inRange 0 255 addr).map fun a => .read (BitVec.ofNat 8 a)
    | some _ => none
  | .von _ => none
  | .voff _ => none
  | .mute => none
  | .unity => none
  | .uncfg => none

/-- A hexadecimal digit's value, lower case. -/
def hexDigit (c : Char) : Option Nat :=
  if '0' ≤ c ∧ c ≤ '9' then some (c.toNat - 48)
  else if 'a' ≤ c ∧ c ≤ 'f' then some (c.toNat - 87)
  else none

/-- A non-empty run of digits in a base, most significant first. -/
def digitsValue (base : Nat) (cs : List Char) : Option Nat :=
  if cs.isEmpty then none
  else cs.foldl (fun acc c =>
    match acc, hexDigit c with
    | some n, some d => if d < base then some (n * base + d) else none
    | _, _ => none) (some 0)

/-- A decimal or 0x-hex integer without sign. -/
def natOf : List Char → Option Nat
  | '0' :: 'x' :: cs => digitsValue 16 cs
  | cs => digitsValue 10 cs

/-- A decimal or 0x-hex integer, with an optional minus sign. -/
def intOf : List Char → Option Int
  | '-' :: cs => (natOf cs).map fun n => -(n : Int)
  | cs => (natOf cs).map fun n => (n : Int)

/-- A decimal real without sign: digits, then perhaps a point and digits; as numerator and denominator. -/
def unsignedRealOf (cs : List Char) : Option (Nat × Nat) :=
  let whole := cs.takeWhile fun c => c != '.'
  match cs.drop whole.length with
  | [] => (digitsValue 10 whole).map fun n => (n, 1)
  | _ :: frac =>
    match digitsValue 10 whole, digitsValue 10 frac with
    | some n, some f => some (n * 10 ^ frac.length + f, 10 ^ frac.length)
    | _, _ => none

/-- A decimal real with an optional minus sign. -/
def realOf : List Char → Option (Int × Nat)
  | '-' :: cs => (unsignedRealOf cs).map fun r => (-(r.1 : Int), r.2)
  | cs => (unsignedRealOf cs).map fun r => ((r.1 : Int), r.2)

/-- VOICE's second operand: 0, 1, off or on (R81). -/
def onOf : List Char → Option Bool
  | ['0'] => some false
  | ['1'] => some true
  | ['o', 'f', 'f'] => some false
  | ['o', 'n'] => some true
  | _ => none

/-- The token being read, put before the tokens after it. -/
def flushToken (cur : List Char) (rest : List (List Char)) : List (List Char) :=
  if cur.isEmpty then rest else cur.reverse :: rest

/-- The tokens of a line: words between white space, a comma by itself, and a colon closing the word it
ends; `cur` is the word being read, last character first. -/
def tokensFrom (cur : List Char) : List Char → List (List Char)
  | [] => flushToken cur []
  | c :: cs =>
    if c = ' ' ∨ c = '\t' then flushToken cur (tokensFrom [] cs)
    else if c = ',' then flushToken cur ([','] :: tokensFrom [] cs)
    else if c = ':' then flushToken (':' :: cur) (tokensFrom [] cs)
    else tokensFrom (c :: cur) cs

/-- The tokens of a line in lower case, its comment dropped: `;` starts a comment, and mnemonics are
case-insensitive (R81). DESIGN CHOICE: R81 says so of mnemonics alone; the model reads the whole line without regard
to case, so the tags `e:` and `c:`, `0X`, hexadecimal digits and `ON` or `OFF` too (assumption log 14). -/
def tokensOf (line : List Char) : List (List Char) :=
  tokensFrom [] ((line.takeWhile fun c => c != ';').map Char.toLower)

/-- A statement from its tokens (R81, R82). -/
def stmtOf (ts : List (List Char)) : Option AsmStmt :=
  match ts with
  | [m] =>
    if m = "nop".toList then some .nop
    else if m = "relall".toList then some .relall
    else if m = "mute".toList then some .mute
    else if m = "unity".toList then some .unity
    else if m = "uncfg".toList then some .uncfg
    else none
  | [m, a] =>
    if m = "cfg".toList then (intOf a).map .cfg
    else if m = "render".toList then (intOf a).map .render
    else if m = "gain".toList then (realOf a).map fun r => .gain r.1 r.2
    else if m = "gain.raw".toList then (intOf a).map .gainRaw
    else if m = ".word".toList then (intOf a).map .word
    else if m = "rd".toList then (intOf a).map .rd
    else if m = "von".toList then (intOf a).map .von
    else if m = "voff".toList then (intOf a).map .voff
    else none
  | [m, a, [','], b] =>
    if m = "voice".toList then
      match intOf a, onOf b with
      | some i, some on => some (.voice i on)
      | _, _ => none
    else none
  | _ => none

/-- A line's port tag and the tokens after it: `E:` or `C:` (R81). -/
def splitTag : List (List Char) → Option Port × List (List Char)
  | ['e', ':'] :: ts => (some .engine, ts)
  | ['c', ':'] :: ts => (some .control, ts)
  | ts => (none, ts)

/-- One line of assembly text; none is an assembly error, or a line without a statement (R81, R82). -/
def assembleLine (line : List Char) : Option AsmOut :=
  let r := splitTag (tokensOf line)
  (stmtOf r.2).bind (assembleStmt r.1)

end Sys2Proof.Machine
end

