-- ==== Sys2Proof/Safety.lean ====
section
/-! DEFINITION. What a safe run of the bank is, in the terms the statements use: the invariant
(10_state.md R38), the reachable states, the frames delivered so far, and the spec's own views of a frame
and of a run of samples (41_voice_bank.md R130, R133; 40_oscillator.md R108). -/

namespace Sys2Proof

/-- A turn in which the reset input strikes. -/
def Turn.isReset : Turn → Bool
  | .reset _ _ => true
  | _ => false

/-- A turn in which HOST offers a word on the engine port. -/
def Turn.offersEngine : Turn → Bool
  | .offer .engine _ => true
  | _ => false

end Sys2Proof

namespace Sys2Proof.Machine

open Sys2Proof

/-- A frame word as the bank writes it: L = R, and no sample is -32768 (R131). -/
def GoodFrame (w : Word) : Prop :=
  w.extractLsb' 0 16 = w.extractLsb' 16 16 ∧ w.extractLsb' 0 16 ≠ 0x8000#16

/-- The invariant of R38, with the tuning words' law it rests on (R25, R102) and the form of every frame
the bank has made (R131). -/
structure State.Inv (s : State) : Prop where
  gain_le : s.gain.toNat ≤ 65536
  depth_pos : 1 ≤ s.outqDepth
  outq_le : s.outq.length ≤ s.outqDepth
  ftw_eq : ∀ i : Voice, s.ftw[i] = tuningWord s.freq[i] s.sr
  frames_good : ∀ w ∈ s.popped ++ s.outq, GoodFrame w

/-- The states some bank can reach: after reset with any build constants, and by steps (R38, R202). -/
inductive Reachable : State → Prop where
  | reset (freq : VoiceRegs) (outqDepth : Nat) (sched : List Turn) (turns : Nat)
      (h : 1 ≤ outqDepth) :
      Reachable { State.resetOf freq outqDepth with sched := sched, turns := turns }
  | step (s t : State) (hs : Reachable s) (h : step s = .next t) : Reachable t

/-- The steps of the agents, in one order: `ts` are the turns taken, from the first to the last (R61). -/
inductive TurnsRun : List Turn → State → State → Prop where
  | nil (s : State) : TurnsRun [] s s
  | cons (τ : Turn) (ts : List Turn) (s u t : State) (h : runTurn τ s = .next u)
      (hs : TurnsRun ts u t) : TurnsRun (τ :: ts) s t

/-- The frames the host has popped, and those OUTQ still holds, oldest first (R133). A reset empties OUTQ and
leaves the host's record of pops (assumption logs 5 and 6). -/
def State.delivered (s : State) : List Word := s.popped ++ s.outq

/-- The next step is no reset, and no control word takes effect in it: a control word it accepts, if any, leaves ACT and
G as they are (R132's proviso). -/
def State.Undisturbed (s : State) : Prop :=
  s.nextTurn.isReset = false ∧
    (s.nextTurn = .ctl → ∀ t, step s = .next t → t.act = s.act ∧ t.gain = s.gain)

/-- A run, of any length, in whose steps no reset strikes and no control word takes effect (R132). -/
inductive UndisturbedRun : State → State → Prop where
  | nil (s : State) : UndisturbedRun s s
  | cons (s u t : State) (hq : s.Undisturbed) (h : step s = .next u) (hs : UndisturbedRun u t) :
      UndisturbedRun s t

/-- The active voices, as a finite set (R30). -/
def State.activeVoices (s : State) : Finset Voice :=
  Finset.univ.filter fun i => s.act.getLsbD i.val = true

/-- The sum of the active voices' samples at the present phases (R130). -/
def State.activeTotal (s : State) : Int :=
  ∑ i ∈ s.activeVoices, oscSine s.ph[i]

/-- The sample of a voice after `j` frames from phase `p` with tuning word `f` (R105). -/
def sampleAt (p f : Word) (j : Nat) : Int :=
  oscSine (p + BitVec.ofNat 32 j * f)

/-- The zero crossings in the first `k` frames: frames j with 1 ≤ j < k whose sign class differs from that of
frame j - 1 (R108). -/
def zeroCrossings (p f : Word) (k : Nat) : Nat :=
  (List.range (k - 1)).countP fun j =>
    decide (0 ≤ sampleAt p f j) != decide (0 ≤ sampleAt p f (j + 1))

end Sys2Proof.Machine
end

