-- ==== Sys2Proof/Certificates/Slice0/Obligations.lean ====
section
/-! DEFINITION. The statements about the oscillator bank, each a proposition to be proved. Every one holds for
every build (FREQ_TABLE and OUTQ_DEPTH are fields of the state it quantifies over) and for every order of
the agents' turns (the script, and the free turn, are in the state too). -/

open Sys2Proof Sys2Proof.Machine

/-! ## Decoding and encoding -/

/-- R83, R150: six command words of R83's table, written out, decode to the instructions they stand for, and the read
address 0x59 is a request to read it (R150). -/
def Obligations.SpecWordsDecodeAsListed : Prop :=
  decode .engine 0x0100BB80#32 = .command (.cfg 48000) ∧
  decode .engine 0x02FFFFFF#32 = .command (.render 16777215) ∧
  decode .control 0x10000109#32 = .command (.voice 9 true) ∧
  decode .control 0x11FF8000#32 = .command (.gain (-32768)) ∧
  decode .control 0x12000000#32 = .command .relall ∧
  decode .engine 0x00000000#32 = .command .nop ∧
  decodeRead 0x59#8 = .rd 0x59

/-- R72, R73, R74: what each port makes of every word, by its OP field alone, with the operands as plain
integers of the word's bits. -/
def Obligations.OpcodeMapAndOperands : Prop :=
  ∀ w : Word,
    let op := w.toNat / 16777216
    let u24 := w.toNat % 16777216
    (op = 0x00 → ∀ p, decode p w = .command .nop) ∧
    (op = 0x01 → decode .engine w = .command (.cfg u24) ∧ decode .control w = .ignored .wrongPort) ∧
    (op = 0x02 →
      decode .engine w = .command (.render u24) ∧ decode .control w = .ignored .wrongPort) ∧
    (op = 0x10 →
      decode .control w = .command (.voice (w.toNat % 256) (w.getLsbD 8)) ∧
      decode .engine w = .ignored .wrongPort) ∧
    (op = 0x11 →
      decode .control w = .command (.gain (w.setWidth 24).toInt) ∧
      decode .engine w = .ignored .wrongPort) ∧
    (op = 0x12 → decode .control w = .command .relall ∧ decode .engine w = .ignored .wrongPort) ∧
    (op ≠ 0x00 → op ≠ 0x01 → op ≠ 0x02 → op ≠ 0x10 → op ≠ 0x11 → op ≠ 0x12 →
      ∀ p, decode p w = .ignored .reservedOpcode)

/-- R77: bits [23:9] of VOICE and all operand bits of NOP and RELALL are ignored; every operand bit of CFG,
RENDER and GAIN is significant. -/
def Obligations.IgnoredOperandBitsNeverMatter : Prop :=
  (∀ (p : Port) (w v : Word), opcode w = opcode v → (opcode w = 0x00 ∨ opcode w = 0x12) →
    decode p w = decode p v) ∧
  (∀ (p : Port) (w v : Word), opcode w = 0x10 → opcode v = 0x10 →
    w.extractLsb' 0 9 = v.extractLsb' 0 9 → decode p w = decode p v) ∧
  (∀ w v : Word, (opcode w = 0x01 ∨ opcode w = 0x02) → decode .engine w = decode .engine v → w = v) ∧
  (∀ w v : Word, opcode w = 0x11 → decode .control w = decode .control v → w = v)

/-- R71, R72, R73: every well-formed instruction is spelled by its encoding, with every operand value: a
command decodes back on each port that accepts it, and some port does; a read-back request decodes back. -/
def Obligations.DecodeOfEncodeIsIdentity : Prop :=
  ∀ i : Instr, i.wf = true →
    (∃ w, encode i = .word w ∧ (∃ p, accepts p i = true) ∧
      ∀ p, accepts p i = true → decode p w = .command i) ∨
    (∃ a, encode i = .readAddr a ∧ decodeRead a = i)

/-- R71 to R77: every decoded command is well formed, and encoding it gives a word that differs from the one
decoded in ignored bits only. -/
def Obligations.EncodeOfDecodeKeepsTheWord : Prop :=
  ∀ (p : Port) (w : Word) (i : Instr), decode p w = .command i →
    i.wf = true ∧
    ∃ w', encode i = .word w' ∧ decode p w' = .command i ∧ opcode w' = opcode w ∧
      (opcode w = 0x01 ∨ opcode w = 0x02 ∨ opcode w = 0x11 → w' = w) ∧
      (opcode w = 0x10 → w' = w &&& 0xFF0001FF#32) ∧
      (opcode w = 0x00 ∨ opcode w = 0x12 → w' = w &&& 0xFF000000#32)

/-- R51: a word's little-endian bytes carry it, byte 0 holding bits [7:0]; a frame's bytes 0 and 1 are its left
sample, bytes 2 and 3 its right one; a byte stream of commands decodes word by word. -/
def Obligations.LittleEndianSerialization : Prop :=
  (∀ w : Word, ∃ b0 b1 b2 b3 : Byte, wordBytes w = [b0, b1, b2, b3] ∧
    w.toNat = b0.toNat + 256 * b1.toNat + 65536 * b2.toNat + 16777216 * b3.toNat ∧
    bytesWord b0 b1 b2 b3 = w) ∧
  (∀ w : Word, ∃ b0 b1 b2 b3 : Byte, wordBytes w = [b0, b1, b2, b3] ∧
    w.extractLsb' 0 16 = b1 ++ b0 ∧ w.extractLsb' 16 16 = b3 ++ b2) ∧
  (∀ (p : Port) (w : Word) (rest : List Byte),
    decodeBytes p (wordBytes w ++ rest) = some (decode p w, rest))

/-- R81: each assembler form with its operand in range gives exactly its word, on the default port unless the line is
tagged (`GAIN g` is in AssemblerRoundsTheGain). NOP must be tagged. R81 calls an operand out of range an assembly error
for CFG and GAIN; that it is one in every form, that `.word` must carry a tag and that RD must not are the model's
choice (assumption log 14). -/
def Obligations.AssemblerFormsEncode : Prop :=
  (∀ tag (r : Int), assembleStmt tag (.cfg r) =
    if 0 ≤ r ∧ r ≤ 16777215 then
      some (.command (tag.getD .engine) (BitVec.ofInt 32 (0x01000000 + r))) else none) ∧
  (∀ tag (n : Int), assembleStmt tag (.render n) =
    if 0 ≤ n ∧ n ≤ 16777215 then
      some (.command (tag.getD .engine) (BitVec.ofInt 32 (0x02000000 + n))) else none) ∧
  (∀ tag (i : Int) (on : Bool), assembleStmt tag (.voice i on) =
    if 0 ≤ i ∧ i ≤ 255 then
      some (.command (tag.getD .control)
        (BitVec.ofInt 32 (0x10000000 + (if on then 256 else 0) + i))) else none) ∧
  (∀ tag (v : Int), assembleStmt tag (.gainRaw v) =
    if -8388608 ≤ v ∧ v ≤ 16777215 then
      some (.command (tag.getD .control) (0x11#8 ++ BitVec.ofInt 24 v)) else none) ∧
  (∀ tag, assembleStmt tag .relall = some (.command (tag.getD .control) 0x12000000#32)) ∧
  (∀ p, assembleStmt (some p) .nop = some (.command p 0#32)) ∧ assembleStmt none .nop = none ∧
  (∀ a : Int, assembleStmt none (.rd a) =
    if 0 ≤ a ∧ a ≤ 255 then some (.read (BitVec.ofInt 8 a)) else none) ∧
  (∀ (p : Port) (a : Int), assembleStmt (some p) (.rd a) = none) ∧
  (∀ (p : Port) (w : Int), assembleStmt (some p) (.word w) =
    if 0 ≤ w ∧ w ≤ 4294967295 then some (.command p (BitVec.ofInt 32 w)) else none) ∧
  (∀ w : Int, assembleStmt none (.word w) = none)

/-- R81: `GAIN g` rounds g * 65536 to floor(g * 65536 + 1/2), and that value must lie in the operand's range. -/
def Obligations.AssemblerRoundsTheGain : Prop :=
  ∀ (tag : Option Port) (num : Int) (den : Nat), 0 < den →
    let v := ⌊((num : ℚ) / (den : ℚ)) * 65536 + 1 / 2⌋
    assembleStmt tag (.gain num den) =
      if -8388608 ≤ v ∧ v ≤ 8388607 then
        some (.command (tag.getD .control) (0x11#8 ++ BitVec.ofInt 24 v)) else none

/-- R82: the pseudo-instructions assemble to the words of their expansions. -/
def Obligations.PseudoInstructionsExpand : Prop :=
  ∀ (tag : Option Port) (i : Int),
    assembleStmt tag (.von i) = assembleStmt tag (.voice i true) ∧
    assembleStmt tag (.voff i) = assembleStmt tag (.voice i false) ∧
    assembleStmt tag .mute = some (.command (tag.getD .control) 0x11000000#32) ∧
    assembleStmt tag .unity = some (.command (tag.getD .control) 0x11010000#32) ∧
    assembleStmt tag .uncfg = some (.command (tag.getD .engine) 0x01000000#32)

/-! ## The step -/

/-- R60, R74, R121, R128, R150: a step whose turn accepts a word, or a read-back request, runs exactly the
decoded instruction, once the turn is taken and the word has left its port. -/
def Obligations.StepRunsTheDecodedInstruction : Prop :=
  (∀ (s : State) (w : Word) (rest : List Word) (i : Instr),
    s.nextTurn = .eng → s.rem = 0#24 → s.engIn = w :: rest → decode .engine w = .command i →
    step s = exec i { s.takeTurn with engIn := rest }) ∧
  (∀ (s : State) (w : Word) (rest : List Word) (i : Instr),
    s.nextTurn = .ctl → s.ctlIn = w :: rest → decode .control w = .command i →
    step s = exec i { s.takeTurn with ctlIn := rest }) ∧
  (∀ (s : State) (a : Byte), s.nextTurn = .read a → step s = exec (decodeRead a) s.takeTurn)

/-- R170: no command and no step can fault: each answers a next state, in every state. -/
def Obligations.NothingFaults : Prop :=
  (∀ (i : Instr) (s : State), ∃ t, exec i s = .next t) ∧ ∀ s : State, ∃ t, step s = .next t

/-- R57, R61: whatever turns the agents take, in whatever order, that order is a run of the machine: the script
that names those turns takes exactly them (the script is the model's own form: assumption log 2). -/
def Obligations.EveryInterleavingIsAdmitted : Prop :=
  ∀ (ts : List Turn) (s t : State), TurnsRun ts s t →
    Sys2Proof.core.run ts.length { s with sched := ts } = .next { t with sched := [] }

/-- R121: ENG's turn, in each of its four situations: idle; the next word accepted; one frame step; held. (That an
agent which may do nothing takes a turn without effect is the model's form: assumption log 4.) -/
def Obligations.EngineTurnFollowsItsRule : Prop :=
  ∀ s : State, s.nextTurn = .eng →
    (s.rem = 0#24 → s.engIn = [] → step s = .next s.takeTurn) ∧
    (s.rem = 0#24 → ∀ w rest, s.engIn = w :: rest →
      step s = match decode .engine w with
        | .command i => exec i { s.takeTurn with engIn := rest }
        | .ignored _ => .next { s.takeTurn with engIn := rest }) ∧
    (s.rem ≠ 0#24 → s.outq.length < s.outqDepth → step s = .next (frameStep s.takeTurn)) ∧
    (s.rem ≠ 0#24 → s.outqDepth ≤ s.outq.length → step s = .next s.takeTurn)

/-- R128: CTL accepts the next control-port word in any state, whatever REM, OUTQ and SR. -/
def Obligations.ControlPortIsNeverBlocked : Prop :=
  ∀ (s : State) (w : Word) (rest : List Word), s.nextTurn = .ctl → s.ctlIn = w :: rest →
    (∃ t, step s = .next t ∧ t.ctlIn = rest ∧ t.engIn = s.engIn ∧ t.rem = s.rem ∧ t.outq = s.outq) ∧
    step s = match decode .control w with
      | .command i => exec i { s.takeTurn with ctlIn := rest }
      | .ignored _ => .next { s.takeTurn with ctlIn := rest }

/-- R75, R76: a word with a reserved opcode, or an opcode of the other port, is accepted and changes nothing; on the
engine port it is accepted only while REM = 0. -/
def Obligations.IgnoredWordsChangeNothing : Prop :=
  (∀ (s : State) (w : Word) (rest : List Word),
    s.nextTurn = .eng → s.engIn = w :: rest →
    opcode w ≠ 0x00 → opcode w ≠ 0x01 → opcode w ≠ 0x02 →
    (s.rem = 0#24 → step s = .next { s.takeTurn with engIn := rest }) ∧
    (s.rem ≠ 0#24 → ∃ t, step s = .next t ∧ t.engIn = w :: rest)) ∧
  (∀ (s : State) (w : Word) (rest : List Word),
    s.nextTurn = .ctl → s.ctlIn = w :: rest →
    opcode w ≠ 0x00 → opcode w ≠ 0x10 → opcode w ≠ 0x11 → opcode w ≠ 0x12 →
    step s = .next { s.takeTurn with ctlIn := rest })

/-- R60: a word offered has no effect but to wait behind the words already offered on its port. -/
def Obligations.OfferedWordsOnlyWait : Prop :=
  ∀ (s : State) (p : Port) (w : Word), s.nextTurn = .offer p w →
    step s = .next { s.takeTurn with
      engIn := if p = .engine then s.engIn ++ [w] else s.engIn
      ctlIn := if p = .control then s.ctlIn ++ [w] else s.ctlIn }

/-! ## The instructions: results, frames, completion -/

/-- R127: NOP completes and changes nothing; it is the word of opcode 0 on either port, and on the engine port it is
accepted, as every word, only while REM = 0. -/
def Obligations.NopChangesNothing : Prop :=
  (∀ s : State, exec .nop s = .next s) ∧
  (∀ (p : Port) (w : Word), opcode w = 0x00 → decode p w = .command .nop) ∧
  (∀ (s : State) (w : Word) (rest : List Word), s.nextTurn = .eng → s.engIn = w :: rest →
    opcode w = 0x00 →
    (s.rem = 0#24 → step s = .next { s.takeTurn with engIn := rest }) ∧
    (s.rem ≠ 0#24 → ∃ t, step s = .next t ∧ t.engIn = w :: rest))

/-- R101, R102, R122: CFG writes SR and all 17 tuning words in one step, each from its FREQ entry and the
new rate, rounded to nearest, and leaves everything else (every phase among it). It is the word of opcode 1 on the
engine port, its rate the low 24 bits; ENG accepts it only while REM = 0; on the control port it is ignored. -/
def Obligations.CfgSetsRateAndTuningWords : Prop :=
  (∀ (rate : Nat) (s : State), rate < 16777216 →
    ∃ t, exec (.cfg rate) s = .next t ∧ t = { s with sr := t.sr, ftw := t.ftw } ∧
      t.sr.toNat = rate ∧
      ∀ i : Voice, t.ftw[i].toNat =
        if rate = 0 then 0
        else (s.freq[i].toNat * 65536 + rate / 2) / rate % 4294967296) ∧
  (∀ w : Word, opcode w = 0x01 →
    decode .engine w = .command (.cfg (w.toNat % 16777216)) ∧
    decode .control w = .ignored .wrongPort) ∧
  (∀ (s : State) (w : Word) (rest : List Word), s.nextTurn = .eng → s.engIn = w :: rest →
    opcode w = 0x01 →
    (s.rem = 0#24 → step s = exec (.cfg (w.toNat % 16777216)) { s.takeTurn with engIn := rest }) ∧
    (s.rem ≠ 0#24 → ∃ t, step s = .next t ∧ t.engIn = w :: rest ∧ t.sr = s.sr ∧ t.ftw = s.ftw))

/-- R102, R103: for a configured bank CFG's tuning word is, modulo 2^32, the integer q nearest to
FREQ * 2^16 / SR, a tie going upward. -/
def Obligations.TuningWordIsNearestTiesUp : Prop :=
  ∀ (rate : Nat) (s : State), 0 < rate → rate < 16777216 →
    ∃ t, exec (.cfg rate) s = .next t ∧
      ∀ i : Voice, ∃ q : Nat, t.ftw[i].toNat = q % 4294967296 ∧
        2 * q * rate ≤ 2 * (s.freq[i].toNat * 65536) + rate ∧
        2 * (s.freq[i].toNat * 65536) + rate < 2 * (q + 1) * rate

/-- R126: RENDER sets REM to the frame count and changes nothing else; RENDER 0 leaves no frame to render. It is the
word of opcode 2 on the engine port, its count the low 24 bits; ENG accepts it only while REM = 0. -/
def Obligations.RenderSetsTheFrameCount : Prop :=
  (∀ (n : Nat) (s : State), n < 16777216 →
    ∃ t, exec (.render n) s = .next t ∧ t = { s with rem := t.rem } ∧ t.rem.toNat = n) ∧
  (∀ w : Word, opcode w = 0x02 →
    decode .engine w = .command (.render (w.toNat % 16777216)) ∧
    decode .control w = .ignored .wrongPort) ∧
  (∀ (s : State) (w : Word) (rest : List Word), s.nextTurn = .eng → s.engIn = w :: rest →
    opcode w = 0x02 →
    (s.rem = 0#24 →
      step s = exec (.render (w.toNat % 16777216)) { s.takeTurn with engIn := rest }) ∧
    (s.rem ≠ 0#24 → ∃ t, step s = .next t ∧ t.engIn = w :: rest))

/-- R123: VOICE writes the one bit it names, for an index up to 16, and is ignored for any other; the phases and
all else stay. It is the word of opcode 0x10 on the control port, IDX its low 8 bits and ON its bit 8. -/
def Obligations.VoiceWritesOneActiveBit : Prop :=
  (∀ (idx : Nat) (on : Bool) (s : State),
    ∃ t, exec (.voice idx on) s = .next t ∧ t = { s with act := t.act } ∧
      (∀ k, k < 17 → t.act.getLsbD k = if k = idx then on else s.act.getLsbD k) ∧
      (16 < idx → t = s)) ∧
  (∀ w : Word, opcode w = 0x10 →
    decode .control w = .command (.voice (w.toNat % 256) (w.getLsbD 8)) ∧
    decode .engine w = .ignored .wrongPort)

/-- R124: GAIN clamps its operand into 0..65536 and writes G, and nothing else (no tuning word). It is the word of
opcode 0x11 on the control port, its operand the low 24 bits in two's complement. -/
def Obligations.GainIsClamped : Prop :=
  (∀ (gv : Int) (s : State),
    ∃ t, exec (.gain gv) s = .next t ∧ t = { s with gain := t.gain } ∧
      (gv < 0 → t.gain.toNat = 0) ∧ (65536 < gv → t.gain.toNat = 65536) ∧
      (0 ≤ gv → gv ≤ 65536 → (t.gain.toNat : Int) = gv)) ∧
  (∀ w : Word, opcode w = 0x11 →
    decode .control w = .command (.gain (w.setWidth 24).toInt) ∧
    decode .engine w = .ignored .wrongPort)

/-- R125: RELALL clears all 17 active bits in one step and changes nothing else. It is the word of opcode 0x12 on the
control port, whatever its operand bits. -/
def Obligations.RelallReleasesEveryVoice : Prop :=
  (∀ s : State, ∃ t, exec .relall s = .next t ∧ t = { s with act := t.act } ∧
    (∀ k, t.act.getLsbD k = false) ∧ t.activeVoices = ∅) ∧
  (∀ w : Word, opcode w = 0x12 →
    decode .control w = .command .relall ∧ decode .engine w = .ignored .wrongPort)

/-- R150, R151, R152, R34, R36: RD completes in every state, returns the register its address names (a reserved address
gives 0), changes nothing in the bank, and repeated at once returns the same value. -/
def Obligations.ReadbackReturnsTheMappedRegister : Prop :=
  ∀ (s : State) (a : Nat), a < 256 →
    ∃ v : Word, exec (.rd a) s = .next { s with reads := s.reads ++ [v] } ∧
      exec (.rd a) { s with reads := s.reads ++ [v] } =
        .next { s with reads := s.reads ++ [v] ++ [v] } ∧
      (a = 0x00 → v = 0x01200A11#32) ∧
      (a = 0x01 → v.toNat =
        (if s.sr = 0#24 then 0 else 1) + (if s.rem = 0#24 then 0 else 2) +
        (if s.outq.length = s.outqDepth then 4 else 0) + (if s.outq = [] then 8 else 0)) ∧
      (a = 0x02 → v.toNat = s.sr.toNat) ∧ (a = 0x03 → v.toNat = s.gain.toNat) ∧
      (a = 0x04 → v.toNat = s.act.toNat) ∧ (a = 0x05 → v.toNat = s.rem.toNat) ∧
      (a = 0x06 → v.toNat = s.activeVoices.card) ∧
      (a = 0x07 → s.outq.length < 4294967296 → v.toNat = s.outq.length) ∧
      (∀ i : Voice, a = 0x10 + i.val → v = s.freq[i]) ∧
      (∀ i : Voice, a = 0x30 + i.val → v = s.ftw[i]) ∧
      (∀ i : Voice, a = 0x50 + i.val → v = s.ph[i]) ∧
      ((0x08 ≤ a ∧ a ≤ 0x0F) ∨ (0x21 ≤ a ∧ a ≤ 0x2F) ∨ (0x41 ≤ a ∧ a ≤ 0x4F) ∨ 0x61 ≤ a → v = 0#32)

/-- R53: NOP, VOICE, GAIN, CFG and RELALL leave the state unchanged when repeated at once. -/
def Obligations.RepeatedCommandsChangeNothing : Prop :=
  ∀ (i : Instr) (s t : State), (∀ n, i ≠ .render n) → (∀ a, i ≠ .rd a) →
    exec i s = .next t → exec i t = .next t

/-! ## The oscillator -/

/-- R100, R101, R102: OSC.SETRATE writes SR alone and recomputes no tuning word; OSC.SETFREQ(i) writes FTW[i] alone,
by the tuning law. -/
def Obligations.DatapathOperationsTouchOneVoice : Prop :=
  (∀ (rate : Nat) (s : State), rate < 16777216 →
    ∃ t, oscSetRate rate s = t ∧ t = { s with sr := t.sr } ∧ t.sr.toNat = rate) ∧
  (∀ (i : Voice) (s : State),
    ∃ t, oscSetFreq s i = t ∧ t = { s with ftw := t.ftw } ∧
      (∀ j : Voice, j ≠ i → t.ftw[j] = s.ftw[j]) ∧
      t.ftw[i].toNat =
        if s.sr = 0#24 then 0
        else (s.freq[i].toNat * 65536 + s.sr.toNat / 2) / s.sr.toNat % 4294967296)

/-- R29: the quarter-wave ROM is the rounded sine: SINQ[k] = floor(32767 * sin((pi/2) * k/256) + 1/2). -/
def Obligations.SinqIsTheRoundedSine : Prop :=
  ∀ k : Nat, k ≤ 256 →
    (sinq k : Int) = ⌊32767 * Real.sin (Real.pi / 2 * ((k : ℝ) / 256)) + 1 / 2⌋

/-- R107 (error against the ideal): every sample of OSC.SINE lies within 202 output LSBs of the ideal sine of its
phase. -/
def Obligations.SineIsNearTheIdeal : Prop :=
  ∀ p : Word,
    |(oscSine p : ℝ) - 32767 * Real.sin (2 * Real.pi * (p.toNat : ℝ) / 4294967296)| < 202

/-- R106: OSC.SINE rebuilds the cycle from the quarter-wave ROM; the low 22 phase bits do not count. -/
def Obligations.SineFromTheQuarterWave : Prop :=
  ∀ p : Word,
    let idx := p.toNat / 4194304
    (idx < 256 → oscSine p = (sinq idx : Int)) ∧
    (256 ≤ idx → idx < 512 → oscSine p = (sinq (512 - idx) : Int)) ∧
    (512 ≤ idx → idx < 768 → oscSine p = -(sinq (idx - 512) : Int)) ∧
    (768 ≤ idx → oscSine p = -(sinq (1024 - idx) : Int))

/-- R107: the bound, half-cycle antisymmetry, quarter-cycle reflection and odd symmetry of OSC.SINE (its laws
over the integers). -/
def Obligations.SineSymmetries : Prop :=
  (∀ p : Word, |oscSine p| ≤ 32767) ∧
  (∀ p : Word, oscSine (p + 0x80000000#32) = -oscSine p) ∧
  (∀ k : Nat, k ≤ 512 →
    oscSine (BitVec.ofNat 32 (2147483648 - k * 4194304)) = oscSine (BitVec.ofNat 32 (k * 4194304))) ∧
  (∀ k : Nat, k < 1024 →
    oscSine (BitVec.ofNat 32 (4294967296 - k * 4194304)) = -oscSine (BitVec.ofNat 32 (k * 4194304)))

/-- R104, R105, R130: a tick returns the sample of the phase before the advance, advances that one phase modulo 2^32
and changes nothing else; so a voice active for k frames of a configured bank gives the samples of the phases
p0 + j * FTW and ends at p0 + k * FTW, and an inactive voice holds its phase. -/
def Obligations.TickSamplesThenAdvances : Prop :=
  (∀ (i : Voice) (s : State), ∃ t, oscTick i s = (oscSine s.ph[i], t) ∧ t = { s with ph := t.ph } ∧
    t.ph[i].toNat = (s.ph[i].toNat + s.ftw[i].toNat) % 4294967296 ∧
    ∀ j : Voice, j ≠ i → t.ph[j] = s.ph[j]) ∧
  (∀ (k : Nat) (i : Voice) (s : State), s.sr ≠ 0#24 →
    (s.act.getLsbD i.val = true →
      (frameStep^[k] s).ph[i].toNat = (s.ph[i].toNat + k * s.ftw[i].toNat) % 4294967296 ∧
      (oscTick i (frameStep^[k] s)).1 = sampleAt s.ph[i] s.ftw[i] k) ∧
    (s.act.getLsbD i.val = false → (frameStep^[k] s).ph[i] = s.ph[i]))

/-- R108: over k frames a voice whose tuning word is below 511 * 2^22 crosses zero between 2*floor(T) - 2 and
2*floor(T) + 2 times, where T is the total phase advance in turns. -/
def Obligations.ZeroCrossingsMatchTheFrequency : Prop :=
  ∀ (p f : Word) (k : Nat), f.toNat < 511 * 4194304 → 1 ≤ k →
    2 * (k * f.toNat / 4294967296) ≤ zeroCrossings p f k + 2 ∧
    zeroCrossings p f k ≤ 2 * (k * f.toNat / 4294967296) + 2

/-! ## The frame step and the mixer -/

/-- R130, R131: the frame step in full. The sample is 0, with no tick, while SR = 0 or ACT = 0, else
total * G / nActive truncated toward zero; both halves of the frame word carry it; each active phase of a
configured bank advances and every other holds; REM counts down; nothing else changes. -/
def Obligations.FrameStepMixesOneFrame : Prop :=
  ∀ s : State, s.nextTurn = .eng → s.rem ≠ 0#24 → s.outq.length < s.outqDepth →
    ∃ (t : State) (x : Int) (w : Word),
      step s = .next t ∧
      t = { s.takeTurn with ph := t.ph, outq := s.outq ++ [w], rem := t.rem } ∧
      t.rem.toNat + 1 = s.rem.toNat ∧
      w.extractLsb' 0 16 = BitVec.ofInt 16 x ∧ w.extractLsb' 16 16 = BitVec.ofInt 16 x ∧
      (s.sr = 0#24 ∨ s.act = 0#17 → x = 0) ∧
      (s.sr ≠ 0#24 → s.act ≠ 0#17 →
        x = ((∑ i ∈ s.activeVoices, oscSine s.ph[i]) * (s.gain.toNat : Int)).tdiv
          ((s.activeVoices.card : Int) * 65536)) ∧
      ∀ i : Voice, t.ph[i] =
        if s.sr ≠ 0#24 ∧ s.act.getLsbD i.val = true then s.ph[i] + s.ftw[i] else s.ph[i]

/-- R132 (normalization bound): with a legal gain every frame's sample, read from its word, lies within
floor(32767 * G / 65536), and its two halves are equal. -/
def Obligations.FramesNeverExceedTheGain : Prop :=
  ∀ s : State, s.gain.toNat ≤ 65536 → s.nextTurn = .eng → s.rem ≠ 0#24 →
    s.outq.length < s.outqDepth →
    ∃ (t : State) (w : Word), step s = .next t ∧ t.outq = s.outq ++ [w] ∧
      (w.extractLsb' 0 16).toInt.natAbs ≤ 32767 * s.gain.toNat / 65536 ∧
      w.extractLsb' 16 16 = w.extractLsb' 0 16

/-- R132 (silence): a frame started with ACT = 0 or SR = 0 is the word 0 and moves no phase. -/
def Obligations.SilentFramesAreZero : Prop :=
  ∀ s : State, s.sr = 0#24 ∨ s.act = 0#17 → s.nextTurn = .eng → s.rem ≠ 0#24 →
    s.outq.length < s.outqDepth →
    ∃ t, step s = .next t ∧ t.outq = s.outq ++ [0#32] ∧ t.ph = s.ph

/-- R132 (gain clamp): after GAIN with gv <= 0 a frame is the word 0; after GAIN with gv >= 65536 it is the
frame of gain 65536. -/
def Obligations.ClampedGainsBoundTheFrame : Prop :=
  ∀ (gv : Int) (s : State),
    ∃ t, exec (.gain gv) s = .next t ∧
      (gv ≤ 0 → (frameStep t).outq = s.outq ++ [0#32]) ∧
      (65536 ≤ gv → frameStep t = frameStep { s with gain := 0x10000#17 })

/-- R132 (superposition): at the same phases and gain, the frame of two voices differs from half the
sum of their frames alone by at most 1. -/
def Obligations.SuperpositionWithinOne : Prop :=
  ∀ (s : State) (i j : Voice), i ≠ j →
    let alone := fun k : Voice => (mixFrame { s with act := setBit 0#17 k.val true }).1
    let both := (mixFrame { s with act := setBit (setBit 0#17 i.val true) j.val true }).1
    |2 * both - (alone i + alone j)| ≤ 2

/-- R132 (release): once RELALL is accepted, a frame step gives silence, whatever sounded before. -/
def Obligations.ReleaseAllSilencesTheNextFrame : Prop :=
  ∀ s : State, ∃ t, exec .relall s = .next t ∧
    (frameStep t).outq = s.outq ++ [0#32] ∧ (frameStep t).ph = s.ph

/-- R58, R100: a frame's sample depends on SR = 0 or not, ACT, G and the active voices' phases only: no silent
voice, tuning word, queue, counter or waiting word can reach it. -/
def Obligations.SilentVoicesCannotReachTheFrame : Prop :=
  ∀ s u : State, (s.sr = 0#24 ↔ u.sr = 0#24) → s.act = u.act → s.gain = u.gain →
    (∀ i : Voice, s.act.getLsbD i.val = true → s.ph[i] = u.ph[i]) →
    (mixFrame s).1 = (mixFrame u).1

/-- R132 (determinism): the frames of a render are a function of SR, FTW, PH, ACT and G at its start, provided no
control word takes effect during it. Any k consecutive frame steps give the same frames and the same phases; and in any
two undisturbed runs, of any lengths and with any turns of the agents between the frames (pops, reads, offers, idle
turns: assumption logs 2 and 4), the i-th frame of the render in progress is the same word. -/
def Obligations.RenderedFramesAreDetermined : Prop :=
  ∀ s u : State, s.sr = u.sr → s.ftw = u.ftw → s.ph = u.ph → s.act = u.act → s.gain = u.gain →
    (∀ k : Nat, ∃ fs : List Word, fs.length = k ∧ (frameStep^[k] s).outq = s.outq ++ fs ∧
      (frameStep^[k] u).outq = u.outq ++ fs ∧ (frameStep^[k] s).ph = (frameStep^[k] u).ph) ∧
    ∀ t v : State, UndisturbedRun s t → UndisturbedRun u v →
      ∃ fs gs : List Word, t.delivered = s.delivered ++ fs ∧ v.delivered = u.delivered ++ gs ∧
        ∀ (i : Nat) (w x : Word), i < s.rem.toNat → i < u.rem.toNat →
          fs[i]? = some w → gs[i]? = some x → w = x

/-! ## Renders and the output queue -/

/-- R133: HOST's pop removes the head frame of OUTQ, unchanged, and nothing else, and a pop of an empty OUTQ takes nothing
(a turn without effect: assumption log 4); no step
but a reset drops, repeats or changes a frame: the frames delivered and queued grow by at most one, at the end, and
only in a frame step that has room. -/
def Obligations.FramesLeaveInOrderAndNoneIsLost : Prop :=
  (∀ s : State, s.nextTurn = .pop →
    (∀ w rest, s.outq = w :: rest →
      step s = .next { s.takeTurn with outq := rest, popped := s.popped ++ [w] }) ∧
    (s.outq = [] → step s = .next s.takeTurn)) ∧
  (∀ s t : State, step s = .next t → s.nextTurn.isReset = false →
    ∃ fs : List Word, t.delivered = s.delivered ++ fs ∧ fs.length ≤ 1 ∧
      (fs ≠ [] → s.nextTurn = .eng ∧ s.rem ≠ 0#24 ∧ s.outq.length < s.outqDepth))

/-- R56, R121: while a render is in progress no engine word is accepted: any step but a reset leaves SR and FTW,
keeps the words waiting on the engine port, and produces a frame for each frame it takes off REM. -/
def Obligations.RenderHoldsTheEnginePort : Prop :=
  ∀ s t : State, step s = .next t → s.rem ≠ 0#24 → s.nextTurn.isReset = false →
    t.sr = s.sr ∧ t.ftw = s.ftw ∧ (∃ more, t.engIn = s.engIn ++ more) ∧
    ∃ fs : List Word, t.delivered = s.delivered ++ fs ∧ fs.length + t.rem.toNat = s.rem.toNat

/-- R126, R61: however control words, reads, pops and frame steps interleave, the frames produced and the frames
still to render add up to the render's count: exactly n, never more or fewer. (The order of the turns is given by the
model's script: assumption log 2.) -/
def Obligations.RenderYieldsExactlyItsCount : Prop :=
  ∀ (ts : List Turn) (s t : State), s.sched = ts → s.engIn = [] →
    (∀ τ ∈ ts, τ.isReset = false ∧ τ.offersEngine = false) →
    Sys2Proof.core.run ts.length s = .next t →
    ∃ fs : List Word, t.delivered = s.delivered ++ fs ∧ fs.length + t.rem.toNat = s.rem.toNat

/-- R126, R121: with room for its frames, a render of n frames is over once ENG has had n turns, however the other
agents' turns fall between them, and exactly n frames have been made. (The turns are those of the model's script, and ENG's
turns once REM = 0 are turns without effect: assumption logs 2 and 4. No fairness is assumed: log 12.) -/
def Obligations.RenderEndsWithinItsCount : Prop :=
  ∀ (ts : List Turn) (s : State), s.sched = ts → s.engIn = [] →
    (∀ τ ∈ ts, τ.isReset = false ∧ τ.offersEngine = false) →
    s.outq.length + s.rem.toNat ≤ s.outqDepth → s.rem.toNat ≤ ts.count .eng →
    ∃ (t : State) (fs : List Word), Sys2Proof.core.run ts.length s = .next t ∧ t.rem = 0#24 ∧
      t.delivered = s.delivered ++ fs ∧ fs.length = s.rem.toNat

/-- R121, R173, R208: a render held by a full OUTQ goes on after a pop: no frame was dropped. (ENG's held turn is a step
without effect, and the script names the turns: assumption logs 4, 2 and 12.) -/
def Obligations.PopLiftsTheHold : Prop :=
  ∀ (s : State) (ts : List Turn), s.sched = .eng :: .pop :: .eng :: ts → s.rem ≠ 0#24 →
    s.outq.length = s.outqDepth → 1 ≤ s.outqDepth →
    ∃ (t : State) (w : Word), Sys2Proof.core.run 3 s = .next t ∧
      t.delivered = s.delivered ++ [w] ∧ t.outq.length = s.outqDepth ∧
      t.rem.toNat + 1 = s.rem.toNat

/-! ## Writers, invariants, reset -/

/-- R23, R24, R25, R209: SR and FTW change only in an accepted CFG, or a reset. -/
def Obligations.OnlyCfgWritesRateAndTuning : Prop :=
  ∀ s t : State, step s = .next t → (t.sr ≠ s.sr ∨ t.ftw ≠ s.ftw) →
    s.nextTurn.isReset = true ∨
    (s.nextTurn = .eng ∧ s.rem = 0#24 ∧
      ∃ w rest rate, s.engIn = w :: rest ∧ decode .engine w = .command (.cfg rate))

/-- R23, R30, R31, R209: ACT changes only in an accepted VOICE or RELALL, and G only in an accepted GAIN, or in a
reset. -/
def Obligations.OnlyControlWordsWriteActAndGain : Prop :=
  ∀ s t : State, step s = .next t → s.nextTurn.isReset = false →
    (t.act ≠ s.act → s.nextTurn = .ctl ∧ ∃ w rest, s.ctlIn = w :: rest ∧
      (decode .control w = .command .relall ∨
        ∃ idx on, idx ≤ 16 ∧ decode .control w = .command (.voice idx on))) ∧
    (t.gain ≠ s.gain → s.nextTurn = .ctl ∧ ∃ w rest gv, s.ctlIn = w :: rest ∧
      decode .control w = .command (.gain gv))

/-- R23, R26, R32: a phase changes only in a frame step of a configured bank, for an active voice; REM only in a
frame step or an accepted RENDER; OUTQ only in a frame step or a pop; or in a reset. -/
def Obligations.OnlyFramesMovePhases : Prop :=
  ∀ s t : State, step s = .next t → s.nextTurn.isReset = false →
    (∀ i : Voice, t.ph[i] ≠ s.ph[i] →
      s.nextTurn = .eng ∧ s.rem ≠ 0#24 ∧ s.outq.length < s.outqDepth ∧ s.sr ≠ 0#24 ∧
        s.act.getLsbD i.val = true) ∧
    (t.rem ≠ s.rem → s.nextTurn = .eng ∧
      ((s.rem ≠ 0#24 ∧ s.outq.length < s.outqDepth) ∨
        (s.rem = 0#24 ∧ ∃ w rest n, s.engIn = w :: rest ∧ decode .engine w = .command (.render n)))) ∧
    (t.outq ≠ s.outq → s.nextTurn = .pop ∨
      (s.nextTurn = .eng ∧ s.rem ≠ 0#24 ∧ s.outq.length < s.outqDepth))

/-- R10, R27, R37, R200: no step, not even a reset, changes the build constants FREQ and OUTQ_DEPTH. -/
def Obligations.BuildConstantsNeverChange : Prop :=
  ∀ s t : State, step s = .next t → t.freq = s.freq ∧ t.outqDepth = s.outqDepth

/-- R38: the state after reset of every bank meets the invariant, and so does State.reset (its default build is
the model's choice, assumption log 1). -/
def Obligations.ResetMeetsTheInvariant : Prop :=
  (∀ (freq : VoiceRegs) (depth : Nat), 1 ≤ depth → (State.resetOf freq depth).Inv) ∧ State.reset.Inv

/-- R38: every step keeps the invariant: G legal, OUTQ within its depth, every tuning word that of its FREQ entry
and SR (so 0 while unconfigured), every frame with equal halves and never -32768. -/
def Obligations.EveryStepKeepsTheInvariant : Prop :=
  ∀ s t : State, s.Inv → step s = .next t → t.Inv

/-- R38: in every reachable state G <= 65536, |OUTQ| <= OUTQ_DEPTH, and SR = 0 implies every FTW is 0. -/
def Obligations.ReachableStatesAreLegal : Prop :=
  ∀ s : State, Reachable s →
    s.gain.toNat ≤ 65536 ∧ s.outq.length ≤ s.outqDepth ∧
    (s.sr = 0#24 → ∀ i : Voice, s.ftw[i] = 0#32)

/-- R200: reset, in any state, zeroes every stored element and empties OUTQ, discards a word being accepted on
either port (the turn says whether one was: assumption log 6), and changes neither FREQ nor OUTQ_DEPTH nor ID. -/
def Obligations.ResetClearsTheBank : Prop :=
  ∀ (s : State) (midEng midCtl : Bool), s.nextTurn = .reset midEng midCtl →
    ∃ t, step s = .next t ∧ t.sr = 0#24 ∧ (∀ i : Voice, t.ftw[i] = 0#32 ∧ t.ph[i] = 0#32) ∧
      t.act = 0#17 ∧ t.gain = 0#17 ∧ t.rem = 0#24 ∧ t.outq = [] ∧ t.freq = s.freq ∧
      t.outqDepth = s.outqDepth ∧ regRead t 0x00 = 0x01200A11#32 ∧
      (midEng = true → s.rem = 0#24 → t.engIn = s.engIn.tail) ∧
      (midCtl = true → t.ctlIn = s.ctlIn.tail)

/-- R35, R201: STATUS in every state, and what the read-back port shows after a reset: an unconfigured, idle, silent
bank with an empty OUTQ, in which neither sequencer does anything until a word is offered (its turn is one without
effect: assumption log 4), and each then accepts the first word offered at once. -/
def Obligations.StatusAndReadbackAfterReset : Prop :=
  (∀ s : State, (regRead s 0x01).toNat =
    (if s.sr = 0#24 then 0 else 1) + (if s.rem = 0#24 then 0 else 2) +
    (if s.outq.length = s.outqDepth then 4 else 0) + (if s.outq = [] then 8 else 0)) ∧
  (∀ (s : State) (midEng midCtl : Bool), s.nextTurn = .reset midEng midCtl → 1 ≤ s.outqDepth →
    ∃ t, step s = .next t ∧ regRead t 0x01 = 0x00000008#32 ∧ regRead t 0x02 = 0#32 ∧
      regRead t 0x03 = 0#32 ∧ regRead t 0x04 = 0#32 ∧ regRead t 0x05 = 0#32 ∧
      regRead t 0x06 = 0#32 ∧ regRead t 0x07 = 0#32 ∧
      (∀ i : Voice, regRead t (0x10 + i.val) = s.freq[i]) ∧
      (t.engIn = [] → runTurn .eng t = .next t) ∧ (t.ctlIn = [] → runTurn .ctl t = .next t) ∧
      (∀ w rest, t.engIn = w :: rest → ∃ u, runTurn .eng t = .next u ∧ u.engIn = rest) ∧
      (∀ w rest, t.ctlIn = w :: rest → ∃ u, runTurn .ctl t = .next u ∧ u.ctlIn = rest))

/-- Assumption log 6 (DEDUCED): what a reset leaves waiting, under every pair of flags: the engine port loses its head
word only if ENG was accepting it, which it can be only while REM = 0; the control port loses its head word only if CTL
was accepting it; and what the host has popped and read stays. -/
def Obligations.ResetKeepsWaitingWords : Prop :=
  ∀ (s : State) (midEng midCtl : Bool), s.nextTurn = .reset midEng midCtl →
    ∃ t, step s = .next t ∧
      t.engIn = (if midEng = true ∧ s.rem = 0#24 then s.engIn.tail else s.engIn) ∧
      t.ctlIn = (if midCtl = true then s.ctlIn.tail else s.ctlIn) ∧
      t.popped = s.popped ∧ t.reads = s.reads
end

