-- ==== Sys2Proof/Laws/Operands.lean ====
section
/-! SUPPORT. Bit fields, masks, counts, clamping and frame words as plain arithmetic (00_scope.md R11, R12). -/

namespace Sys2Proof.Machine

open Sys2Proof

theorem bits_eq {n : Nat} (v : BitVec n) (hi lo : Nat) :
    bits v hi lo = v.toNat / 2 ^ lo % 2 ^ (hi + 1 - lo) := by
  rw [bits, Nat.shiftRight_eq_div_pow]

theorem opcode_eq (w : Word) : opcode w = w.toNat / 16777216 := by
  have := w.isLt
  rw [opcode, bits_eq]
  simp only [Nat.reducePow, Nat.reduceAdd, Nat.reduceSub]
  omega

theorem arg_eq (w : Word) : arg w = w.toNat % 16777216 := by
  simp [arg, bits_eq]

theorem voiceIdx_eq (w : Word) : voiceIdx w = w.toNat % 256 := by
  simp [voiceIdx, bits_eq]

theorem voiceOn_eq (w : Word) : voiceOn w = decide (w.toNat / 256 % 2 = 1) := by
  simp only [voiceOn, BitVec.getLsbD, Nat.testBit_eq_decide_div_mod_eq, Nat.reducePow]

theorem commandWord_toNat (op a : Nat) (ho : op < 256) (ha : a < 16777216) :
    (commandWord op a).toNat = op * 16777216 + a := by
  rw [commandWord, BitVec.toNat_ofNat, Nat.mod_eq_of_lt]
  norm_num
  omega

theorem opcode_commandWord (op a : Nat) (ho : op < 256) (ha : a < 16777216) :
    opcode (commandWord op a) = op := by
  rw [opcode_eq, commandWord_toNat op a ho ha]
  omega

theorem arg_commandWord (op a : Nat) (ho : op < 256) (ha : a < 16777216) :
    arg (commandWord op a) = a := by
  rw [arg_eq, commandWord_toNat op a ho ha]
  omega

/-- A word is its opcode and its operand field (R71). -/
theorem commandWord_opcode_arg (w : Word) : commandWord (opcode w) (arg w) = w := by
  have hw := w.isLt
  apply BitVec.eq_of_toNat_eq
  rw [opcode_eq, arg_eq, commandWord_toNat _ _ (by omega) (by omega)]
  omega

theorem sext24_trunc24 (v : Int) (h1 : -8388608 ≤ v) (h2 : v ≤ 8388607) :
    sext24 (trunc24 v) = v := by
  unfold sext24 trunc24
  split <;> omega

theorem trunc24_sext24 (v : Nat) (h : v < 16777216) : trunc24 (sext24 v) = v := by
  unfold sext24 trunc24
  split <;> omega

theorem sext24_range (v : Nat) (h : v < 16777216) :
    -8388608 ≤ sext24 v ∧ sext24 v ≤ 8388607 := by
  unfold sext24
  split <;> omega

theorem trunc24_lt (v : Int) : trunc24 v < 16777216 := by
  unfold trunc24; omega

theorem clamp_mem (v lo hi : Int) (h : lo ≤ hi) : lo ≤ clamp v lo hi ∧ clamp v lo hi ≤ hi := by
  unfold clamp; split_ifs <;> omega

theorem popcount_le {n : Nat} (m : BitVec n) : popcount m ≤ n := by
  have h := List.countP_le_length (p := fun k => m.getLsbD k) (l := List.range n)
  rwa [List.length_range] at h

theorem popcount_eq_zero_iff {n : Nat} (m : BitVec n) : popcount m = 0 ↔ m = 0#n := by
  simp only [popcount, List.countP_eq_zero, List.mem_range, Bool.not_eq_true]
  constructor
  · intro h
    apply BitVec.eq_of_getLsbD_eq
    intro i hi
    rw [h i hi, BitVec.getLsbD_zero]
  · rintro rfl i -
    exact BitVec.getLsbD_zero

/-- Writing one bit of a mask keeps every other (R63). -/
theorem setBit_getLsbD {n : Nat} (m : BitVec n) (i k : Nat) (b : Bool) (hk : k < n) :
    (setBit m i b).getLsbD k = if k = i then b else m.getLsbD k := by
  unfold setBit
  cases b <;> by_cases h : k = i
  · subst h; simp [hk]
  · simp [h, hk]; omega
  · subst h; simp [hk]
  · simp [h, hk]; omega

theorem setBit_setBit {n : Nat} (m : BitVec n) (i : Nat) (b : Bool) :
    setBit (setBit m i b) i b = setBit m i b := by
  apply BitVec.eq_of_getLsbD_eq
  intro k hk
  simp only [setBit_getLsbD _ _ _ _ hk]
  split_ifs <;> rfl

theorem frameWord_left (s : Int) : (frameWord s).extractLsb' 0 16 = BitVec.ofInt 16 s := by
  unfold frameWord
  exact BitVec.extractLsb'_append_eq_right

theorem frameWord_right (s : Int) : (frameWord s).extractLsb' 16 16 = BitVec.ofInt 16 s := by
  unfold frameWord
  exact BitVec.extractLsb'_append_eq_left

theorem frameWord_zero : frameWord 0 = 0#32 := by decide

/-- A sample within Q1.15 is read back from its half of the frame word (R131). -/
theorem ofInt16_toInt (s : Int) (h1 : -32767 ≤ s) (h2 : s ≤ 32767) :
    (BitVec.ofInt 16 s).toInt = s := by
  rw [BitVec.toInt_ofInt, Int.bmod_eq_of_le] <;> norm_num <;> omega

theorem bytesWord_wordBytes (w : Word) :
    bytesWord (w.extractLsb' 0 8) (w.extractLsb' 8 8) (w.extractLsb' 16 8) (w.extractLsb' 24 8) = w := by
  unfold bytesWord
  apply BitVec.eq_of_getLsbD_eq
  intro i hi
  simp only [BitVec.getLsbD_append, BitVec.getLsbD_extractLsb']
  split_ifs with h1 h2 h3
  · simp [h1]
  · simp [show i - 8 < 8 by omega, show 8 + (i - 8) = i by omega]
  · simp [show i - 8 - 8 < 8 by omega, show 16 + (i - 8 - 8) = i by omega]
  · simp [show i - 8 - 8 - 8 < 8 by omega, show 24 + (i - 8 - 8 - 8) = i by omega]

end Sys2Proof.Machine
end

