-- ==== Sys2Proof/Laws/Decode.lean ====
section
/-! SUPPORT. Decoding by the opcode, and what each encoded word decodes to (30_encoding.md R71 to R77). -/

namespace Sys2Proof

open Sys2Proof.Machine

theorem decodeCommand_nop (w : Word) (h : opcode w = 0x00) : decodeCommand w = some .nop := by
  simp [decodeCommand, h]

theorem decodeCommand_cfg (w : Word) (h : opcode w = 0x01) :
    decodeCommand w = some (.cfg (arg w)) := by
  simp [decodeCommand, h]

theorem decodeCommand_render (w : Word) (h : opcode w = 0x02) :
    decodeCommand w = some (.render (arg w)) := by
  simp [decodeCommand, h]

theorem decodeCommand_voice (w : Word) (h : opcode w = 0x10) :
    decodeCommand w = some (.voice (voiceIdx w) (voiceOn w)) := by
  simp [decodeCommand, h]

theorem decodeCommand_gain (w : Word) (h : opcode w = 0x11) :
    decodeCommand w = some (.gain (sext24 (arg w))) := by
  simp [decodeCommand, h]

theorem decodeCommand_relall (w : Word) (h : opcode w = 0x12) :
    decodeCommand w = some .relall := by
  simp [decodeCommand, h]

/-- Every opcode outside R73 is reserved (R75). -/
theorem decodeCommand_reserved (w : Word) (h0 : opcode w ≠ 0x00) (h1 : opcode w ≠ 0x01)
    (h2 : opcode w ≠ 0x02) (h3 : opcode w ≠ 0x10) (h4 : opcode w ≠ 0x11) (h5 : opcode w ≠ 0x12) :
    decodeCommand w = none := by
  simp [decodeCommand, h0, h1, h2, h3, h4, h5]

/-- A decoded command carries its opcode, and its operands are the word's fields. -/
theorem decodeCommand_cases (w : Word) (i : Instr) (h : decodeCommand w = some i) :
    (opcode w = 0x00 ∧ i = .nop) ∨ (opcode w = 0x01 ∧ i = .cfg (arg w)) ∨
    (opcode w = 0x02 ∧ i = .render (arg w)) ∨
    (opcode w = 0x10 ∧ i = .voice (voiceIdx w) (voiceOn w)) ∨
    (opcode w = 0x11 ∧ i = .gain (sext24 (arg w))) ∨ (opcode w = 0x12 ∧ i = .relall) := by
  unfold decodeCommand at h
  split_ifs at h with h0 h1 h2 h3 h4 h5 <;> cases h <;> tauto

theorem decode_of_some (p : Port) (w : Word) (i : Instr) (h : decodeCommand w = some i) :
    decode p w = if accepts p i then .command i else .ignored .wrongPort := by
  unfold decode; rw [h]

theorem decode_of_none (p : Port) (w : Word) (h : decodeCommand w = none) :
    decode p w = .ignored .reservedOpcode := by
  unfold decode; rw [h]

/-- A port runs a command exactly when the word is that command and the port accepts it (R74). -/
theorem decode_eq_command (p : Port) (w : Word) (i : Instr) :
    decode p w = .command i ↔ decodeCommand w = some i ∧ accepts p i = true := by
  cases h : decodeCommand w with
  | none => simp [decode_of_none p w h]
  | some j =>
    rw [decode_of_some p w j h]
    by_cases ha : accepts p j = true
    · rw [if_pos ha]
      constructor
      · intro h'; cases h'; exact ⟨rfl, ha⟩
      · rintro ⟨h', -⟩; cases h'; rfl
    · rw [if_neg ha]
      constructor
      · intro h'; cases h'
      · rintro ⟨h', h2⟩; cases h'; exact absurd h2 ha

theorem decodeBytes_wordBytes (p : Port) (w : Word) (rest : List Byte) :
    decodeBytes p (wordBytes w ++ rest) = some (decode p w, rest) := by
  change some (decode p (bytesWord _ _ _ _), rest) = _
  rw [bytesWord_wordBytes]

end Sys2Proof
end

