-- ==== Sys2Proof/Laws/State.lean ====
section
/-! SUPPORT. One lemma per field per update: what each named operation makes of each field of State. -/

namespace Sys2Proof.Machine

open Sys2Proof

@[simp] theorem State.setSr_sr (s : State) (v : BitVec 24) :
    (s.setSr v).sr = v := rfl
@[simp] theorem State.setSr_ftw (s : State) (v : BitVec 24) :
    (s.setSr v).ftw = s.ftw := rfl
@[simp] theorem State.setSr_ph (s : State) (v : BitVec 24) :
    (s.setSr v).ph = s.ph := rfl
@[simp] theorem State.setSr_act (s : State) (v : BitVec 24) :
    (s.setSr v).act = s.act := rfl
@[simp] theorem State.setSr_gain (s : State) (v : BitVec 24) :
    (s.setSr v).gain = s.gain := rfl
@[simp] theorem State.setSr_rem (s : State) (v : BitVec 24) :
    (s.setSr v).rem = s.rem := rfl
@[simp] theorem State.setSr_outq (s : State) (v : BitVec 24) :
    (s.setSr v).outq = s.outq := rfl
@[simp] theorem State.setSr_freq (s : State) (v : BitVec 24) :
    (s.setSr v).freq = s.freq := rfl
@[simp] theorem State.setSr_outqDepth (s : State) (v : BitVec 24) :
    (s.setSr v).outqDepth = s.outqDepth := rfl
@[simp] theorem State.setSr_engIn (s : State) (v : BitVec 24) :
    (s.setSr v).engIn = s.engIn := rfl
@[simp] theorem State.setSr_ctlIn (s : State) (v : BitVec 24) :
    (s.setSr v).ctlIn = s.ctlIn := rfl
@[simp] theorem State.setSr_popped (s : State) (v : BitVec 24) :
    (s.setSr v).popped = s.popped := rfl
@[simp] theorem State.setSr_reads (s : State) (v : BitVec 24) :
    (s.setSr v).reads = s.reads := rfl
@[simp] theorem State.setSr_sched (s : State) (v : BitVec 24) :
    (s.setSr v).sched = s.sched := rfl
@[simp] theorem State.setSr_turns (s : State) (v : BitVec 24) :
    (s.setSr v).turns = s.turns := rfl

@[simp] theorem State.setFtw_sr (s : State) (i : Voice) (v : Word) :
    (s.setFtw i v).sr = s.sr := rfl
@[simp] theorem State.setFtw_ftw (s : State) (i : Voice) (v : Word) :
    (s.setFtw i v).ftw = s.ftw.set i v := rfl
@[simp] theorem State.setFtw_ph (s : State) (i : Voice) (v : Word) :
    (s.setFtw i v).ph = s.ph := rfl
@[simp] theorem State.setFtw_act (s : State) (i : Voice) (v : Word) :
    (s.setFtw i v).act = s.act := rfl
@[simp] theorem State.setFtw_gain (s : State) (i : Voice) (v : Word) :
    (s.setFtw i v).gain = s.gain := rfl
@[simp] theorem State.setFtw_rem (s : State) (i : Voice) (v : Word) :
    (s.setFtw i v).rem = s.rem := rfl
@[simp] theorem State.setFtw_outq (s : State) (i : Voice) (v : Word) :
    (s.setFtw i v).outq = s.outq := rfl
@[simp] theorem State.setFtw_freq (s : State) (i : Voice) (v : Word) :
    (s.setFtw i v).freq = s.freq := rfl
@[simp] theorem State.setFtw_outqDepth (s : State) (i : Voice) (v : Word) :
    (s.setFtw i v).outqDepth = s.outqDepth := rfl
@[simp] theorem State.setFtw_engIn (s : State) (i : Voice) (v : Word) :
    (s.setFtw i v).engIn = s.engIn := rfl
@[simp] theorem State.setFtw_ctlIn (s : State) (i : Voice) (v : Word) :
    (s.setFtw i v).ctlIn = s.ctlIn := rfl
@[simp] theorem State.setFtw_popped (s : State) (i : Voice) (v : Word) :
    (s.setFtw i v).popped = s.popped := rfl
@[simp] theorem State.setFtw_reads (s : State) (i : Voice) (v : Word) :
    (s.setFtw i v).reads = s.reads := rfl
@[simp] theorem State.setFtw_sched (s : State) (i : Voice) (v : Word) :
    (s.setFtw i v).sched = s.sched := rfl
@[simp] theorem State.setFtw_turns (s : State) (i : Voice) (v : Word) :
    (s.setFtw i v).turns = s.turns := rfl

@[simp] theorem State.setPh_sr (s : State) (i : Voice) (v : Word) :
    (s.setPh i v).sr = s.sr := rfl
@[simp] theorem State.setPh_ftw (s : State) (i : Voice) (v : Word) :
    (s.setPh i v).ftw = s.ftw := rfl
@[simp] theorem State.setPh_ph (s : State) (i : Voice) (v : Word) :
    (s.setPh i v).ph = s.ph.set i v := rfl
@[simp] theorem State.setPh_act (s : State) (i : Voice) (v : Word) :
    (s.setPh i v).act = s.act := rfl
@[simp] theorem State.setPh_gain (s : State) (i : Voice) (v : Word) :
    (s.setPh i v).gain = s.gain := rfl
@[simp] theorem State.setPh_rem (s : State) (i : Voice) (v : Word) :
    (s.setPh i v).rem = s.rem := rfl
@[simp] theorem State.setPh_outq (s : State) (i : Voice) (v : Word) :
    (s.setPh i v).outq = s.outq := rfl
@[simp] theorem State.setPh_freq (s : State) (i : Voice) (v : Word) :
    (s.setPh i v).freq = s.freq := rfl
@[simp] theorem State.setPh_outqDepth (s : State) (i : Voice) (v : Word) :
    (s.setPh i v).outqDepth = s.outqDepth := rfl
@[simp] theorem State.setPh_engIn (s : State) (i : Voice) (v : Word) :
    (s.setPh i v).engIn = s.engIn := rfl
@[simp] theorem State.setPh_ctlIn (s : State) (i : Voice) (v : Word) :
    (s.setPh i v).ctlIn = s.ctlIn := rfl
@[simp] theorem State.setPh_popped (s : State) (i : Voice) (v : Word) :
    (s.setPh i v).popped = s.popped := rfl
@[simp] theorem State.setPh_reads (s : State) (i : Voice) (v : Word) :
    (s.setPh i v).reads = s.reads := rfl
@[simp] theorem State.setPh_sched (s : State) (i : Voice) (v : Word) :
    (s.setPh i v).sched = s.sched := rfl
@[simp] theorem State.setPh_turns (s : State) (i : Voice) (v : Word) :
    (s.setPh i v).turns = s.turns := rfl

@[simp] theorem State.setAct_sr (s : State) (v : BitVec 17) :
    (s.setAct v).sr = s.sr := rfl
@[simp] theorem State.setAct_ftw (s : State) (v : BitVec 17) :
    (s.setAct v).ftw = s.ftw := rfl
@[simp] theorem State.setAct_ph (s : State) (v : BitVec 17) :
    (s.setAct v).ph = s.ph := rfl
@[simp] theorem State.setAct_act (s : State) (v : BitVec 17) :
    (s.setAct v).act = v := rfl
@[simp] theorem State.setAct_gain (s : State) (v : BitVec 17) :
    (s.setAct v).gain = s.gain := rfl
@[simp] theorem State.setAct_rem (s : State) (v : BitVec 17) :
    (s.setAct v).rem = s.rem := rfl
@[simp] theorem State.setAct_outq (s : State) (v : BitVec 17) :
    (s.setAct v).outq = s.outq := rfl
@[simp] theorem State.setAct_freq (s : State) (v : BitVec 17) :
    (s.setAct v).freq = s.freq := rfl
@[simp] theorem State.setAct_outqDepth (s : State) (v : BitVec 17) :
    (s.setAct v).outqDepth = s.outqDepth := rfl
@[simp] theorem State.setAct_engIn (s : State) (v : BitVec 17) :
    (s.setAct v).engIn = s.engIn := rfl
@[simp] theorem State.setAct_ctlIn (s : State) (v : BitVec 17) :
    (s.setAct v).ctlIn = s.ctlIn := rfl
@[simp] theorem State.setAct_popped (s : State) (v : BitVec 17) :
    (s.setAct v).popped = s.popped := rfl
@[simp] theorem State.setAct_reads (s : State) (v : BitVec 17) :
    (s.setAct v).reads = s.reads := rfl
@[simp] theorem State.setAct_sched (s : State) (v : BitVec 17) :
    (s.setAct v).sched = s.sched := rfl
@[simp] theorem State.setAct_turns (s : State) (v : BitVec 17) :
    (s.setAct v).turns = s.turns := rfl

@[simp] theorem State.setGain_sr (s : State) (v : BitVec 17) :
    (s.setGain v).sr = s.sr := rfl
@[simp] theorem State.setGain_ftw (s : State) (v : BitVec 17) :
    (s.setGain v).ftw = s.ftw := rfl
@[simp] theorem State.setGain_ph (s : State) (v : BitVec 17) :
    (s.setGain v).ph = s.ph := rfl
@[simp] theorem State.setGain_act (s : State) (v : BitVec 17) :
    (s.setGain v).act = s.act := rfl
@[simp] theorem State.setGain_gain (s : State) (v : BitVec 17) :
    (s.setGain v).gain = v := rfl
@[simp] theorem State.setGain_rem (s : State) (v : BitVec 17) :
    (s.setGain v).rem = s.rem := rfl
@[simp] theorem State.setGain_outq (s : State) (v : BitVec 17) :
    (s.setGain v).outq = s.outq := rfl
@[simp] theorem State.setGain_freq (s : State) (v : BitVec 17) :
    (s.setGain v).freq = s.freq := rfl
@[simp] theorem State.setGain_outqDepth (s : State) (v : BitVec 17) :
    (s.setGain v).outqDepth = s.outqDepth := rfl
@[simp] theorem State.setGain_engIn (s : State) (v : BitVec 17) :
    (s.setGain v).engIn = s.engIn := rfl
@[simp] theorem State.setGain_ctlIn (s : State) (v : BitVec 17) :
    (s.setGain v).ctlIn = s.ctlIn := rfl
@[simp] theorem State.setGain_popped (s : State) (v : BitVec 17) :
    (s.setGain v).popped = s.popped := rfl
@[simp] theorem State.setGain_reads (s : State) (v : BitVec 17) :
    (s.setGain v).reads = s.reads := rfl
@[simp] theorem State.setGain_sched (s : State) (v : BitVec 17) :
    (s.setGain v).sched = s.sched := rfl
@[simp] theorem State.setGain_turns (s : State) (v : BitVec 17) :
    (s.setGain v).turns = s.turns := rfl

@[simp] theorem State.setRem_sr (s : State) (v : BitVec 24) :
    (s.setRem v).sr = s.sr := rfl
@[simp] theorem State.setRem_ftw (s : State) (v : BitVec 24) :
    (s.setRem v).ftw = s.ftw := rfl
@[simp] theorem State.setRem_ph (s : State) (v : BitVec 24) :
    (s.setRem v).ph = s.ph := rfl
@[simp] theorem State.setRem_act (s : State) (v : BitVec 24) :
    (s.setRem v).act = s.act := rfl
@[simp] theorem State.setRem_gain (s : State) (v : BitVec 24) :
    (s.setRem v).gain = s.gain := rfl
@[simp] theorem State.setRem_rem (s : State) (v : BitVec 24) :
    (s.setRem v).rem = v := rfl
@[simp] theorem State.setRem_outq (s : State) (v : BitVec 24) :
    (s.setRem v).outq = s.outq := rfl
@[simp] theorem State.setRem_freq (s : State) (v : BitVec 24) :
    (s.setRem v).freq = s.freq := rfl
@[simp] theorem State.setRem_outqDepth (s : State) (v : BitVec 24) :
    (s.setRem v).outqDepth = s.outqDepth := rfl
@[simp] theorem State.setRem_engIn (s : State) (v : BitVec 24) :
    (s.setRem v).engIn = s.engIn := rfl
@[simp] theorem State.setRem_ctlIn (s : State) (v : BitVec 24) :
    (s.setRem v).ctlIn = s.ctlIn := rfl
@[simp] theorem State.setRem_popped (s : State) (v : BitVec 24) :
    (s.setRem v).popped = s.popped := rfl
@[simp] theorem State.setRem_reads (s : State) (v : BitVec 24) :
    (s.setRem v).reads = s.reads := rfl
@[simp] theorem State.setRem_sched (s : State) (v : BitVec 24) :
    (s.setRem v).sched = s.sched := rfl
@[simp] theorem State.setRem_turns (s : State) (v : BitVec 24) :
    (s.setRem v).turns = s.turns := rfl

@[simp] theorem State.enqueue_sr (s : State) (w : Word) :
    (s.enqueue w).sr = s.sr := rfl
@[simp] theorem State.enqueue_ftw (s : State) (w : Word) :
    (s.enqueue w).ftw = s.ftw := rfl
@[simp] theorem State.enqueue_ph (s : State) (w : Word) :
    (s.enqueue w).ph = s.ph := rfl
@[simp] theorem State.enqueue_act (s : State) (w : Word) :
    (s.enqueue w).act = s.act := rfl
@[simp] theorem State.enqueue_gain (s : State) (w : Word) :
    (s.enqueue w).gain = s.gain := rfl
@[simp] theorem State.enqueue_rem (s : State) (w : Word) :
    (s.enqueue w).rem = s.rem := rfl
@[simp] theorem State.enqueue_outq (s : State) (w : Word) :
    (s.enqueue w).outq = s.outq ++ [w] := rfl
@[simp] theorem State.enqueue_freq (s : State) (w : Word) :
    (s.enqueue w).freq = s.freq := rfl
@[simp] theorem State.enqueue_outqDepth (s : State) (w : Word) :
    (s.enqueue w).outqDepth = s.outqDepth := rfl
@[simp] theorem State.enqueue_engIn (s : State) (w : Word) :
    (s.enqueue w).engIn = s.engIn := rfl
@[simp] theorem State.enqueue_ctlIn (s : State) (w : Word) :
    (s.enqueue w).ctlIn = s.ctlIn := rfl
@[simp] theorem State.enqueue_popped (s : State) (w : Word) :
    (s.enqueue w).popped = s.popped := rfl
@[simp] theorem State.enqueue_reads (s : State) (w : Word) :
    (s.enqueue w).reads = s.reads := rfl
@[simp] theorem State.enqueue_sched (s : State) (w : Word) :
    (s.enqueue w).sched = s.sched := rfl
@[simp] theorem State.enqueue_turns (s : State) (w : Word) :
    (s.enqueue w).turns = s.turns := rfl

@[simp] theorem State.returnRead_sr (s : State) (v : Word) :
    (s.returnRead v).sr = s.sr := rfl
@[simp] theorem State.returnRead_ftw (s : State) (v : Word) :
    (s.returnRead v).ftw = s.ftw := rfl
@[simp] theorem State.returnRead_ph (s : State) (v : Word) :
    (s.returnRead v).ph = s.ph := rfl
@[simp] theorem State.returnRead_act (s : State) (v : Word) :
    (s.returnRead v).act = s.act := rfl
@[simp] theorem State.returnRead_gain (s : State) (v : Word) :
    (s.returnRead v).gain = s.gain := rfl
@[simp] theorem State.returnRead_rem (s : State) (v : Word) :
    (s.returnRead v).rem = s.rem := rfl
@[simp] theorem State.returnRead_outq (s : State) (v : Word) :
    (s.returnRead v).outq = s.outq := rfl
@[simp] theorem State.returnRead_freq (s : State) (v : Word) :
    (s.returnRead v).freq = s.freq := rfl
@[simp] theorem State.returnRead_outqDepth (s : State) (v : Word) :
    (s.returnRead v).outqDepth = s.outqDepth := rfl
@[simp] theorem State.returnRead_engIn (s : State) (v : Word) :
    (s.returnRead v).engIn = s.engIn := rfl
@[simp] theorem State.returnRead_ctlIn (s : State) (v : Word) :
    (s.returnRead v).ctlIn = s.ctlIn := rfl
@[simp] theorem State.returnRead_popped (s : State) (v : Word) :
    (s.returnRead v).popped = s.popped := rfl
@[simp] theorem State.returnRead_reads (s : State) (v : Word) :
    (s.returnRead v).reads = s.reads ++ [v] := rfl
@[simp] theorem State.returnRead_sched (s : State) (v : Word) :
    (s.returnRead v).sched = s.sched := rfl
@[simp] theorem State.returnRead_turns (s : State) (v : Word) :
    (s.returnRead v).turns = s.turns := rfl

@[simp] theorem State.setEngIn_sr (s : State) (ws : List Word) :
    (s.setEngIn ws).sr = s.sr := rfl
@[simp] theorem State.setEngIn_ftw (s : State) (ws : List Word) :
    (s.setEngIn ws).ftw = s.ftw := rfl
@[simp] theorem State.setEngIn_ph (s : State) (ws : List Word) :
    (s.setEngIn ws).ph = s.ph := rfl
@[simp] theorem State.setEngIn_act (s : State) (ws : List Word) :
    (s.setEngIn ws).act = s.act := rfl
@[simp] theorem State.setEngIn_gain (s : State) (ws : List Word) :
    (s.setEngIn ws).gain = s.gain := rfl
@[simp] theorem State.setEngIn_rem (s : State) (ws : List Word) :
    (s.setEngIn ws).rem = s.rem := rfl
@[simp] theorem State.setEngIn_outq (s : State) (ws : List Word) :
    (s.setEngIn ws).outq = s.outq := rfl
@[simp] theorem State.setEngIn_freq (s : State) (ws : List Word) :
    (s.setEngIn ws).freq = s.freq := rfl
@[simp] theorem State.setEngIn_outqDepth (s : State) (ws : List Word) :
    (s.setEngIn ws).outqDepth = s.outqDepth := rfl
@[simp] theorem State.setEngIn_engIn (s : State) (ws : List Word) :
    (s.setEngIn ws).engIn = ws := rfl
@[simp] theorem State.setEngIn_ctlIn (s : State) (ws : List Word) :
    (s.setEngIn ws).ctlIn = s.ctlIn := rfl
@[simp] theorem State.setEngIn_popped (s : State) (ws : List Word) :
    (s.setEngIn ws).popped = s.popped := rfl
@[simp] theorem State.setEngIn_reads (s : State) (ws : List Word) :
    (s.setEngIn ws).reads = s.reads := rfl
@[simp] theorem State.setEngIn_sched (s : State) (ws : List Word) :
    (s.setEngIn ws).sched = s.sched := rfl
@[simp] theorem State.setEngIn_turns (s : State) (ws : List Word) :
    (s.setEngIn ws).turns = s.turns := rfl

@[simp] theorem State.setCtlIn_sr (s : State) (ws : List Word) :
    (s.setCtlIn ws).sr = s.sr := rfl
@[simp] theorem State.setCtlIn_ftw (s : State) (ws : List Word) :
    (s.setCtlIn ws).ftw = s.ftw := rfl
@[simp] theorem State.setCtlIn_ph (s : State) (ws : List Word) :
    (s.setCtlIn ws).ph = s.ph := rfl
@[simp] theorem State.setCtlIn_act (s : State) (ws : List Word) :
    (s.setCtlIn ws).act = s.act := rfl
@[simp] theorem State.setCtlIn_gain (s : State) (ws : List Word) :
    (s.setCtlIn ws).gain = s.gain := rfl
@[simp] theorem State.setCtlIn_rem (s : State) (ws : List Word) :
    (s.setCtlIn ws).rem = s.rem := rfl
@[simp] theorem State.setCtlIn_outq (s : State) (ws : List Word) :
    (s.setCtlIn ws).outq = s.outq := rfl
@[simp] theorem State.setCtlIn_freq (s : State) (ws : List Word) :
    (s.setCtlIn ws).freq = s.freq := rfl
@[simp] theorem State.setCtlIn_outqDepth (s : State) (ws : List Word) :
    (s.setCtlIn ws).outqDepth = s.outqDepth := rfl
@[simp] theorem State.setCtlIn_engIn (s : State) (ws : List Word) :
    (s.setCtlIn ws).engIn = s.engIn := rfl
@[simp] theorem State.setCtlIn_ctlIn (s : State) (ws : List Word) :
    (s.setCtlIn ws).ctlIn = ws := rfl
@[simp] theorem State.setCtlIn_popped (s : State) (ws : List Word) :
    (s.setCtlIn ws).popped = s.popped := rfl
@[simp] theorem State.setCtlIn_reads (s : State) (ws : List Word) :
    (s.setCtlIn ws).reads = s.reads := rfl
@[simp] theorem State.setCtlIn_sched (s : State) (ws : List Word) :
    (s.setCtlIn ws).sched = s.sched := rfl
@[simp] theorem State.setCtlIn_turns (s : State) (ws : List Word) :
    (s.setCtlIn ws).turns = s.turns := rfl

@[simp] theorem State.resetBank_sr (s : State) :
    (s.resetBank).sr = 0 := rfl
@[simp] theorem State.resetBank_ftw (s : State) :
    (s.resetBank).ftw = Vector.replicate 17 0 := rfl
@[simp] theorem State.resetBank_ph (s : State) :
    (s.resetBank).ph = Vector.replicate 17 0 := rfl
@[simp] theorem State.resetBank_act (s : State) :
    (s.resetBank).act = 0 := rfl
@[simp] theorem State.resetBank_gain (s : State) :
    (s.resetBank).gain = 0 := rfl
@[simp] theorem State.resetBank_rem (s : State) :
    (s.resetBank).rem = 0 := rfl
@[simp] theorem State.resetBank_outq (s : State) :
    (s.resetBank).outq = [] := rfl
@[simp] theorem State.resetBank_freq (s : State) :
    (s.resetBank).freq = s.freq := rfl
@[simp] theorem State.resetBank_outqDepth (s : State) :
    (s.resetBank).outqDepth = s.outqDepth := rfl
@[simp] theorem State.resetBank_engIn (s : State) :
    (s.resetBank).engIn = s.engIn := rfl
@[simp] theorem State.resetBank_ctlIn (s : State) :
    (s.resetBank).ctlIn = s.ctlIn := rfl
@[simp] theorem State.resetBank_popped (s : State) :
    (s.resetBank).popped = s.popped := rfl
@[simp] theorem State.resetBank_reads (s : State) :
    (s.resetBank).reads = s.reads := rfl
@[simp] theorem State.resetBank_sched (s : State) :
    (s.resetBank).sched = s.sched := rfl
@[simp] theorem State.resetBank_turns (s : State) :
    (s.resetBank).turns = s.turns := rfl

@[simp] theorem State.popFrame_sr (s : State) : s.popFrame.sr = s.sr := by
  unfold State.popFrame; split <;> rfl
@[simp] theorem State.popFrame_ftw (s : State) : s.popFrame.ftw = s.ftw := by
  unfold State.popFrame; split <;> rfl
@[simp] theorem State.popFrame_ph (s : State) : s.popFrame.ph = s.ph := by
  unfold State.popFrame; split <;> rfl
@[simp] theorem State.popFrame_act (s : State) : s.popFrame.act = s.act := by
  unfold State.popFrame; split <;> rfl
@[simp] theorem State.popFrame_gain (s : State) : s.popFrame.gain = s.gain := by
  unfold State.popFrame; split <;> rfl
@[simp] theorem State.popFrame_rem (s : State) : s.popFrame.rem = s.rem := by
  unfold State.popFrame; split <;> rfl
@[simp] theorem State.popFrame_freq (s : State) : s.popFrame.freq = s.freq := by
  unfold State.popFrame; split <;> rfl
@[simp] theorem State.popFrame_outqDepth (s : State) : s.popFrame.outqDepth = s.outqDepth := by
  unfold State.popFrame; split <;> rfl
@[simp] theorem State.popFrame_engIn (s : State) : s.popFrame.engIn = s.engIn := by
  unfold State.popFrame; split <;> rfl
@[simp] theorem State.popFrame_ctlIn (s : State) : s.popFrame.ctlIn = s.ctlIn := by
  unfold State.popFrame; split <;> rfl
@[simp] theorem State.popFrame_reads (s : State) : s.popFrame.reads = s.reads := by
  unfold State.popFrame; split <;> rfl
@[simp] theorem State.popFrame_sched (s : State) : s.popFrame.sched = s.sched := by
  unfold State.popFrame; split <;> rfl
@[simp] theorem State.popFrame_turns (s : State) : s.popFrame.turns = s.turns := by
  unfold State.popFrame; split <;> rfl

theorem State.popFrame_nil (s : State) (h : s.outq = []) : s.popFrame = s := by
  unfold State.popFrame; rw [h]

theorem State.popFrame_cons (s : State) (w : Word) (rest : List Word) (h : s.outq = w :: rest) :
    s.popFrame = { s with outq := rest, popped := s.popped ++ [w] } := by
  unfold State.popFrame; rw [h]

/-- A pop moves the head frame and loses none (R133). -/
@[simp] theorem State.popFrame_delivered (s : State) :
    s.popFrame.popped ++ s.popFrame.outq = s.popped ++ s.outq := by
  unfold State.popFrame; split <;> simp_all

@[simp] theorem State.offerWord_sr (s : State) (p : Port) (w : Word) :
    (s.offerWord p w).sr = s.sr := by cases p <;> rfl
@[simp] theorem State.offerWord_ftw (s : State) (p : Port) (w : Word) :
    (s.offerWord p w).ftw = s.ftw := by cases p <;> rfl
@[simp] theorem State.offerWord_ph (s : State) (p : Port) (w : Word) :
    (s.offerWord p w).ph = s.ph := by cases p <;> rfl
@[simp] theorem State.offerWord_act (s : State) (p : Port) (w : Word) :
    (s.offerWord p w).act = s.act := by cases p <;> rfl
@[simp] theorem State.offerWord_gain (s : State) (p : Port) (w : Word) :
    (s.offerWord p w).gain = s.gain := by cases p <;> rfl
@[simp] theorem State.offerWord_rem (s : State) (p : Port) (w : Word) :
    (s.offerWord p w).rem = s.rem := by cases p <;> rfl
@[simp] theorem State.offerWord_outq (s : State) (p : Port) (w : Word) :
    (s.offerWord p w).outq = s.outq := by cases p <;> rfl
@[simp] theorem State.offerWord_freq (s : State) (p : Port) (w : Word) :
    (s.offerWord p w).freq = s.freq := by cases p <;> rfl
@[simp] theorem State.offerWord_outqDepth (s : State) (p : Port) (w : Word) :
    (s.offerWord p w).outqDepth = s.outqDepth := by cases p <;> rfl
@[simp] theorem State.offerWord_popped (s : State) (p : Port) (w : Word) :
    (s.offerWord p w).popped = s.popped := by cases p <;> rfl
@[simp] theorem State.offerWord_reads (s : State) (p : Port) (w : Word) :
    (s.offerWord p w).reads = s.reads := by cases p <;> rfl
@[simp] theorem State.offerWord_sched (s : State) (p : Port) (w : Word) :
    (s.offerWord p w).sched = s.sched := by cases p <;> rfl
@[simp] theorem State.offerWord_turns (s : State) (p : Port) (w : Word) :
    (s.offerWord p w).turns = s.turns := by cases p <;> rfl

@[simp] theorem State.offerWord_engine_engIn (s : State) (w : Word) :
    (s.offerWord .engine w).engIn = s.engIn ++ [w] := rfl
@[simp] theorem State.offerWord_engine_ctlIn (s : State) (w : Word) :
    (s.offerWord .engine w).ctlIn = s.ctlIn := rfl
@[simp] theorem State.offerWord_control_engIn (s : State) (w : Word) :
    (s.offerWord .control w).engIn = s.engIn := rfl
@[simp] theorem State.offerWord_control_ctlIn (s : State) (w : Word) :
    (s.offerWord .control w).ctlIn = s.ctlIn ++ [w] := rfl

@[simp] theorem State.takeTurn_sr (s : State) : s.takeTurn.sr = s.sr := by
  unfold State.takeTurn; split <;> rfl
@[simp] theorem State.takeTurn_ftw (s : State) : s.takeTurn.ftw = s.ftw := by
  unfold State.takeTurn; split <;> rfl
@[simp] theorem State.takeTurn_ph (s : State) : s.takeTurn.ph = s.ph := by
  unfold State.takeTurn; split <;> rfl
@[simp] theorem State.takeTurn_act (s : State) : s.takeTurn.act = s.act := by
  unfold State.takeTurn; split <;> rfl
@[simp] theorem State.takeTurn_gain (s : State) : s.takeTurn.gain = s.gain := by
  unfold State.takeTurn; split <;> rfl
@[simp] theorem State.takeTurn_rem (s : State) : s.takeTurn.rem = s.rem := by
  unfold State.takeTurn; split <;> rfl
@[simp] theorem State.takeTurn_outq (s : State) : s.takeTurn.outq = s.outq := by
  unfold State.takeTurn; split <;> rfl
@[simp] theorem State.takeTurn_freq (s : State) : s.takeTurn.freq = s.freq := by
  unfold State.takeTurn; split <;> rfl
@[simp] theorem State.takeTurn_outqDepth (s : State) : s.takeTurn.outqDepth = s.outqDepth := by
  unfold State.takeTurn; split <;> rfl
@[simp] theorem State.takeTurn_engIn (s : State) : s.takeTurn.engIn = s.engIn := by
  unfold State.takeTurn; split <;> rfl
@[simp] theorem State.takeTurn_ctlIn (s : State) : s.takeTurn.ctlIn = s.ctlIn := by
  unfold State.takeTurn; split <;> rfl
@[simp] theorem State.takeTurn_popped (s : State) : s.takeTurn.popped = s.popped := by
  unfold State.takeTurn; split <;> rfl
@[simp] theorem State.takeTurn_reads (s : State) : s.takeTurn.reads = s.reads := by
  unfold State.takeTurn; split <;> rfl

theorem State.nextTurn_of_cons (s : State) (t : Turn) (ts : List Turn) (h : s.sched = t :: ts) :
    s.nextTurn = t := by unfold State.nextTurn; rw [h]

theorem State.takeTurn_of_cons (s : State) (t : Turn) (ts : List Turn) (h : s.sched = t :: ts) :
    s.takeTurn = { s with sched := ts } := by unfold State.takeTurn; rw [h]

end Sys2Proof.Machine
end

