-- ==== Sys2Proof/Laws/Oscillator.lean ====
section
/-! SUPPORT. The oscillator datapath: the ranges of SINQ and OSC.SINE, and what CFG's loop over the voices
comes to (40_oscillator.md R102, R106, R107). -/

namespace Sys2Proof.Machine

open Sys2Proof

theorem sinqTable_length : sinqTable.length = 257 := by decide +kernel

theorem sinqTable_le : ∀ v ∈ sinqTable, v ≤ 32767 := by decide +kernel

theorem sinq_le (k : Nat) : sinq k ≤ 32767 := by
  unfold sinq
  rcases Nat.lt_or_ge k sinqTable.length with h | h
  · rw [List.getD_eq_getElem _ _ h]
    exact sinqTable_le _ (List.getElem_mem h)
  · rw [List.getD_eq_default _ _ h]
    omega

theorem sinq_zero : sinq 0 = 0 := by decide

theorem sinq_256 : sinq 256 = 32767 := by decide

/-- Only the first entry of SINQ is zero (R29). -/
theorem sinqTable_tail_pos : ∀ v ∈ sinqTable.tail, 0 < v := by decide +kernel

theorem sinq_pos (k : Nat) (h1 : 1 ≤ k) (h2 : k ≤ 256) : 0 < sinq k := by
  have hl : k < sinqTable.length := by rw [sinqTable_length]; omega
  unfold sinq
  rw [List.getD_eq_getElem _ _ hl]
  apply sinqTable_tail_pos
  obtain ⟨j, rfl⟩ : ∃ j, k = j + 1 := ⟨k - 1, by omega⟩
  rw [← List.getElem_tail (l := sinqTable) (i := j) (h := by rw [List.length_tail, sinqTable_length]; omega)]
  exact List.getElem_mem _

theorem phaseIndex_eq (p : Word) : bits p 31 22 = p.toNat / 4194304 := by
  have := p.isLt
  rw [bits_eq]
  simp only [Nat.reducePow, Nat.reduceAdd, Nat.reduceSub]
  omega

/-- OSC.SINE by the index of the phase, one branch per quadrant (R106). -/
theorem oscSine_eq (p : Word) :
    oscSine p =
      if p.toNat / 4194304 < 256 then (sinq (p.toNat / 4194304) : Int)
      else if p.toNat / 4194304 < 512 then (sinq (512 - p.toNat / 4194304) : Int)
      else if p.toNat / 4194304 < 768 then -(sinq (p.toNat / 4194304 - 512) : Int)
      else -(sinq (1024 - p.toNat / 4194304) : Int) := by
  have hp := p.isLt
  unfold oscSine
  rw [phaseIndex_eq]
  generalize hidx : p.toNat / 4194304 = idx
  have hlt : idx < 1024 := by omega
  simp only []
  split_ifs <;>
    first
    | omega
    | exact congrArg (fun k => (sinq k : Int)) (by omega)
    | exact congrArg (fun k => -(sinq k : Int)) (by omega)

/-- Every sample lies within the sine's amplitude (R107). -/
theorem oscSine_bound (p : Word) : -32767 ≤ oscSine p ∧ oscSine p ≤ 32767 := by
  rw [oscSine_eq]
  have h := sinq_le
  split_ifs
  · have := h (p.toNat / 4194304); omega
  · have := h (512 - p.toNat / 4194304); omega
  · have := h (p.toNat / 4194304 - 512); omega
  · have := h (1024 - p.toNat / 4194304); omega

/-- The sign class of a sample is that of its half cycle: non-negative exactly for indices 0..512 (R108). -/
theorem oscSine_nonneg_iff (p : Word) : 0 ≤ oscSine p ↔ p.toNat < 513 * 4194304 := by
  have hp := p.isLt
  rw [oscSine_eq]
  split_ifs with h1 h2 h3
  · constructor <;> intro <;> omega
  · constructor <;> intro <;> omega
  · by_cases h0 : p.toNat / 4194304 = 512
    · rw [h0]; simp [sinq_zero]; omega
    · have := sinq_pos (p.toNat / 4194304 - 512) (by omega) (by omega)
      omega
  · have := sinq_pos (1024 - p.toNat / 4194304) (by omega) (by omega)
    omega

theorem tuningWord_zero (f : Word) : tuningWord f 0#24 = 0#32 := if_pos rfl

theorem tuningWord_of_ne (f : Word) (sr : BitVec 24) (h : sr ≠ 0#24) :
    tuningWord f sr = BitVec.ofNat 32 ((f.toNat * 65536 + sr.toNat / 2) / sr.toNat) := if_neg h

/-- OSC.SETFREQ run over a list of voices writes each listed voice's tuning word and nothing else. -/
theorem foldl_oscSetFreq (l : List Voice) (s : State) :
    l.foldl oscSetFreq s =
      { s with ftw := Vector.ofFn fun i => if i ∈ l then tuningWord s.freq[i] s.sr else s.ftw[i] } := by
  induction l generalizing s with
  | nil =>
    simp
  | cons a l ih =>
    rw [List.foldl_cons, ih]
    unfold oscSetFreq State.setFtw
    congr 1
    ext i hi : 1
    simp only [Vector.getElem_ofFn, Fin.getElem_fin, List.mem_cons, Vector.getElem_set]
    by_cases hl : (⟨i, hi⟩ : Voice) ∈ l
    · simp [hl]
    · by_cases ha : (⟨i, hi⟩ : Voice) = a
      · subst ha; simp [hl]
      · have : ¬ (a : Nat) = i := fun h => ha (Fin.ext h.symm)
        simp [hl, ha, this]

/-- CFG's whole effect: SR, and every tuning word from it (R122). -/
theorem execCfg_eq (rate : Nat) (s : State) :
    execCfg rate s =
      .next { s with
        sr := BitVec.ofNat 24 rate
        ftw := Vector.ofFn fun i => tuningWord s.freq[i] (BitVec.ofNat 24 rate) } := by
  unfold execCfg
  rw [foldl_oscSetFreq]
  simp [oscSetRate, State.setSr]

end Sys2Proof.Machine
end

