-- ==== Sys2Proof/Laws/Mixer.lean ====
section
/-! SUPPORT. The frame step in closed form: the summing loop, the scaled sample and its bound
(41_voice_bank.md R130 to R132). -/

namespace Sys2Proof.Machine

open Sys2Proof

theorem tickIfActive_of_active (t : Int) (s : State) (i : Voice) (h : s.act.getLsbD i.val = true) :
    tickIfActive (t, s) i = (t + oscSine s.ph[i], s.setPh i (s.ph[i] + s.ftw[i])) := by
  simp [tickIfActive, oscTick, h]

theorem tickIfActive_of_inactive (t : Int) (s : State) (i : Voice)
    (h : ¬ s.act.getLsbD i.val = true) : tickIfActive (t, s) i = (t, s) := if_neg h

/-- The summing loop over a list of voices: what it adds, and the phases it leaves (R130). -/
theorem foldl_tickIfActive (l : List Voice) (hl : l.Nodup) (t : Int) (s : State) :
    l.foldl tickIfActive (t, s) =
      (t + (l.map fun i => if s.act.getLsbD i.val then oscSine s.ph[i] else 0).sum,
       { s with ph := Vector.ofFn fun i =>
          if i ∈ l ∧ s.act.getLsbD i.val = true then s.ph[i] + s.ftw[i] else s.ph[i] }) := by
  induction l generalizing t s with
  | nil => simp
  | cons a l ih =>
    obtain ⟨ha, hl⟩ := List.nodup_cons.mp hl
    rw [List.foldl_cons]
    by_cases hact : s.act.getLsbD a.val = true
    · rw [tickIfActive_of_active t s a hact, ih hl]
      have hne : ∀ i ∈ l, ¬ (a : Nat) = (i : Nat) := fun i hi h => ha (Fin.ext h ▸ hi)
      have hmap : (l.map fun i => if (s.setPh a (s.ph[a] + s.ftw[a])).act.getLsbD i.val then
            oscSine (s.setPh a (s.ph[a] + s.ftw[a])).ph[i] else 0) =
          l.map fun i => if s.act.getLsbD i.val then oscSine s.ph[i] else 0 := by
        apply List.map_congr_left
        intro i hi
        have : (s.setPh a (s.ph[a] + s.ftw[a])).ph[i] = s.ph[i] := by
          simp [hne i hi]
        rw [this]
        rfl
      refine Prod.ext ?_ ?_
      · change t + _ + _ = _
        rw [hmap, List.map_cons, List.sum_cons, if_pos hact]
        ring
      · refine congrArg (fun p => ({ s with ph := p } : State)) ?_
        ext i hi : 1
        simp only [Vector.getElem_ofFn, Fin.getElem_fin, List.mem_cons, State.setPh_ph,
          State.setPh_act, State.setPh_ftw, Vector.getElem_set]
        by_cases hia : (⟨i, hi⟩ : Voice) = a
        · subst hia
          simp [ha, hact]
        · have : ¬ (a : Nat) = i := fun h => hia (Fin.ext h.symm)
          simp [hia, this]
    · rw [tickIfActive_of_inactive t s a hact, ih hl]
      refine Prod.ext ?_ ?_
      · change t + _ = _
        rw [List.map_cons, List.sum_cons, if_neg hact, zero_add]
      · refine congrArg (fun p => ({ s with ph := p } : State)) ?_
        ext i hi : 1
        simp only [Vector.getElem_ofFn, List.mem_cons]
        by_cases hia : (⟨i, hi⟩ : Voice) = a
        · subst hia
          rw [if_neg (fun h => hact h.2), if_neg (fun h => hact h.2)]
        · simp [hia]

/-- The summing loop: the total of the active voices' samples, and every active phase advanced (R130). -/
theorem tickActive_eq (s : State) :
    tickActive s =
      (s.activeTotal,
       { s with ph := Vector.ofFn fun i =>
          if s.act.getLsbD i.val = true then s.ph[i] + s.ftw[i] else s.ph[i] }) := by
  unfold tickActive
  rw [foldl_tickIfActive _ (List.nodup_finRange 17)]
  refine Prod.ext ?_ ?_
  · simp only [zero_add, State.activeTotal, State.activeVoices, Finset.sum_filter]
    rw [← List.ofFn_eq_map, List.sum_ofFn]
  · simp

/-- popcount(ACT) is the number of active voices (R36, R130). -/
theorem nActive_eq_card (s : State) : s.nActive = s.activeVoices.card := by
  unfold State.nActive popcount State.activeVoices
  rw [Finset.card_filter, List.countP_eq_length_filter, ← List.toFinset_card_of_nodup
    ((List.nodup_range).filter _)]
  rw [← Finset.card_filter]
  apply (Finset.card_bij (fun (i : Voice) _ => i.val) ?_ ?_ ?_).symm
  · intro i hi
    simp at hi
    simp [hi]
  · intro i _ j _ h
    exact Fin.ext h
  · intro k hk
    simp at hk
    exact ⟨⟨k, hk.1⟩, by simp [hk.2], rfl⟩

theorem nActive_le (s : State) : s.nActive ≤ 17 := popcount_le s.act

theorem nActive_pos (s : State) (h : s.act ≠ 0#17) : 1 ≤ s.nActive := by
  have := (popcount_eq_zero_iff s.act).not.mpr h
  unfold State.nActive
  omega

/-- The total of n active voices lies within n sine amplitudes (R130, R132). -/
theorem activeTotal_bound (s : State) : s.activeTotal.natAbs ≤ s.nActive * 32767 := by
  rw [nActive_eq_card]
  unfold State.activeTotal
  have h1 : |∑ i ∈ s.activeVoices, oscSine s.ph[i]| ≤ ∑ i ∈ s.activeVoices, |oscSine s.ph[i]| :=
    Finset.abs_sum_le_sum_abs _ _
  have h2 : ∑ i ∈ s.activeVoices, |oscSine s.ph[i]| ≤ ∑ _i ∈ s.activeVoices, (32767 : Int) := by
    apply Finset.sum_le_sum
    intro i _
    have := oscSine_bound s.ph[i]
    rw [abs_le]
    omega
  rw [Finset.sum_const, nsmul_eq_mul] at h2
  have h3 := h1.trans h2
  rw [Int.abs_eq_natAbs] at h3
  exact_mod_cast h3

/-- scaleMix is division truncated toward zero (R130, D14). -/
theorem scaleMix_eq_tdiv (total : Int) (g : BitVec 17) (n : Nat) :
    scaleMix total g n = (total * (g.toNat : Int)).tdiv ((n * 65536 : Nat) : Int) := by
  change (total * (g.toNat : Int)).sign *
    (((total * (g.toNat : Int)).natAbs / (n * 65536) : Nat) : Int) = _
  generalize total * (g.toNat : Int) = p
  rcases Int.natAbs_eq p with h | h
  · rcases Nat.eq_zero_or_pos p.natAbs with h0 | h0
    · rw [Int.natAbs_eq_zero.mp h0]; simp
    · have : p.sign = 1 := Int.sign_eq_one_of_pos (by omega)
      rw [this, one_mul]
      conv_rhs => rw [h]
      exact Int.natCast_ediv _ _ ▸ (Int.tdiv_eq_ediv_of_nonneg (by positivity)).symm
  · rcases Nat.eq_zero_or_pos p.natAbs with h0 | h0
    · rw [Int.natAbs_eq_zero.mp h0]; simp
    · have : p.sign = -1 := Int.sign_eq_neg_one_of_neg (by omega)
      rw [this]
      conv_rhs => rw [h, Int.neg_tdiv]
      rw [Int.tdiv_eq_ediv_of_nonneg (by positivity), ← Int.natCast_ediv]
      ring

/-- The normalization bound of R132, before the frame word. -/
theorem scaleMix_bound (total : Int) (g : BitVec 17) (n : Nat) (ht : total.natAbs ≤ n * 32767) :
    (scaleMix total g n).natAbs ≤ 32767 * g.toNat / 65536 := by
  unfold scaleMix
  rw [Int.natAbs_mul, Int.natAbs_natCast, Int.natAbs_mul, Int.natAbs_natCast]
  have hs : (total * (g.toNat : Int)).sign.natAbs ≤ 1 := by
    rcases Int.sign_trichotomy (total * (g.toNat : Int)) with h | h | h <;> rw [h] <;> decide
  refine (Nat.mul_le_mul_right _ hs).trans ?_
  rw [one_mul]
  rcases Nat.eq_zero_or_pos n with h0 | h0
  · subst h0; simp
  · rw [Nat.le_div_iff_mul_le (by norm_num)]
    have h1 : total.natAbs * g.toNat / (n * 65536) * (n * 65536) ≤ total.natAbs * g.toNat :=
      Nat.div_mul_le_self _ _
    have h2 : total.natAbs * g.toNat ≤ n * 32767 * g.toNat := Nat.mul_le_mul_right _ ht
    have h3 : n * (total.natAbs * g.toNat / (n * 65536) * 65536) ≤ n * (32767 * g.toNat) := by
      calc _ = total.natAbs * g.toNat / (n * 65536) * (n * 65536) := by ring
        _ ≤ n * 32767 * g.toNat := h1.trans h2
        _ = _ := by ring
    exact Nat.le_of_mul_le_mul_left h3 h0

theorem mixFrame_silent (s : State) (h : s.sr = 0#24 ∨ s.act = 0#17) : mixFrame s = (0, s) := by
  unfold mixFrame; rw [if_pos h]

theorem mixFrame_sounding (s : State) (h1 : s.sr ≠ 0#24) (h2 : s.act ≠ 0#17) :
    mixFrame s =
      (scaleMix s.activeTotal s.gain s.nActive,
       { s with ph := Vector.ofFn fun i =>
          if s.act.getLsbD i.val = true then s.ph[i] + s.ftw[i] else s.ph[i] }) := by
  unfold mixFrame
  rw [if_neg (by tauto), tickActive_eq]

/-- Every frame's sample lies within floor(32767 * G / 65536) (R132). -/
theorem mixFrame_bound (s : State) : (mixFrame s).1.natAbs ≤ 32767 * s.gain.toNat / 65536 := by
  by_cases h : s.sr = 0#24 ∨ s.act = 0#17
  · rw [mixFrame_silent s h]; simp
  · rw [mixFrame_sounding s (by tauto) (by tauto)]
    exact scaleMix_bound _ _ _ (activeTotal_bound s)

/-- The phases after a frame step (R130). -/
theorem mixFrame_ph (s : State) (i : Voice) :
    (mixFrame s).2.ph[i] =
      if s.sr ≠ 0#24 ∧ s.act.getLsbD i.val = true then s.ph[i] + s.ftw[i] else s.ph[i] := by
  by_cases h : s.sr = 0#24 ∨ s.act = 0#17
  · rw [mixFrame_silent s h]
    rcases h with h | h
    · simp [h]
    · simp [h]
  · rw [mixFrame_sounding s (by tauto) (by tauto)]
    have : s.sr ≠ 0#24 := by tauto
    simp [this]

/-- Only the phases change while a frame is mixed (R130). -/
theorem mixFrame_frame (s : State) : (mixFrame s).2 = { s with ph := (mixFrame s).2.ph } := by
  by_cases h : s.sr = 0#24 ∨ s.act = 0#17
  · rw [mixFrame_silent s h]
  · rw [mixFrame_sounding s (by tauto) (by tauto)]

/-- The frame step's whole effect: phases, one frame word, and REM (R130). -/
theorem frameStep_eq (s : State) :
    frameStep s =
      { s with
        ph := (mixFrame s).2.ph
        outq := s.outq ++ [frameWord (mixFrame s).1]
        rem := s.rem - 1#24 } := by
  change ({ (mixFrame s).2 with
    outq := (mixFrame s).2.outq ++ [frameWord (mixFrame s).1]
    rem := (mixFrame s).2.rem - 1#24 } : State) = _
  rw [mixFrame_frame s]

/-- A frame the bank makes with a legal gain is a good frame (R131). -/
theorem goodFrame_frameWord (s : Int) (h : s.natAbs ≤ 32767) : GoodFrame (frameWord s) := by
  refine ⟨by rw [frameWord_left, frameWord_right], ?_⟩
  rw [frameWord_left]
  intro h'
  have := congrArg BitVec.toInt h'
  rw [ofInt16_toInt s (by omega) (by omega)] at this
  have h2 : (0x8000#16).toInt = -32768 := by decide
  omega

theorem goodFrame_mixFrame (s : State) (h : s.gain.toNat ≤ 65536) :
    GoodFrame (frameWord (mixFrame s).1) := by
  apply goodFrame_frameWord
  have := mixFrame_bound s
  have h2 : 32767 * s.gain.toNat / 65536 ≤ 32767 := by omega
  omega

end Sys2Proof.Machine
end

