-- ==== Sys2Proof/Laws/PerInstr.lean ====
section
/-! SUPPORT. Statements for all instructions, made per instruction (LAWS.json): every encoded command word
carries its row's OP field (30_encoding.md R71, R73). -/

namespace Sys2Proof.Laws.OpField

open Sys2Proof Sys2Proof.Machine

/-- OP of an instruction's row in spec/opcode_table.json; RD has no command word. -/
def op : Instr → Option Nat
  | .nop => some 0x00
  | .cfg _ => some 0x01
  | .render _ => some 0x02
  | .voice _ _ => some 0x10
  | .gain _ => some 0x11
  | .relall => some 0x12
  | .rd _ => none

/-- A well-formed instruction's command word has its row's opcode. -/
def Statement (i : Instr) : Prop :=
  i.wf = true → ∀ w, encode i = .word w → some (opcode w) = op i

theorem nop : Statement .nop := by
  intro _ w h; cases h; decide

theorem cfg (rate : Nat) : Statement (.cfg rate) := by
  intro hw w h
  cases h
  simp only [Instr.wf, decide_eq_true_eq] at hw
  rw [opcode_commandWord _ _ (by norm_num) hw]; rfl

theorem render (count : Nat) : Statement (.render count) := by
  intro hw w h
  cases h
  simp only [Instr.wf, decide_eq_true_eq] at hw
  rw [opcode_commandWord _ _ (by norm_num) hw]; rfl

theorem voice (idx : Nat) (on : Bool) : Statement (.voice idx on) := by
  intro hw w h
  cases h
  simp only [Instr.wf, decide_eq_true_eq] at hw
  rw [opcode_commandWord _ _ (by norm_num) (by split <;> omega)]; rfl

theorem gain (gv : Int) : Statement (.gain gv) := by
  intro _ w h
  cases h
  rw [opcode_commandWord _ _ (by norm_num) (trunc24_lt gv)]; rfl

theorem relall : Statement .relall := by
  intro _ w h; cases h; decide

theorem rd (addr : Nat) : Statement (.rd addr) := by
  intro _ w h; cases h

end Sys2Proof.Laws.OpField
end

