-- ==== Sys2Proof/Laws/Step.lean ====
section
/-! SUPPORT. What an instruction, and what a step, can do: one inversion lemma each, from which invariants and
frames follow (41_voice_bank.md R121 to R133; 70_reset_and_hazards.md R200). -/

namespace Sys2Proof.Machine

open Sys2Proof

/-- Every instruction answers a next state: the one its rule gives (R122 to R127, R150). -/
theorem exec_cases (i : Instr) (s t : State) (h : exec i s = .next t) :
    (i = .nop ∧ t = s) ∨
    (∃ rate, i = .cfg rate ∧ t = { s with
      sr := BitVec.ofNat 24 rate
      ftw := Vector.ofFn fun k => tuningWord s.freq[k] (BitVec.ofNat 24 rate) }) ∨
    (∃ n, i = .render n ∧ t = s.setRem (BitVec.ofNat 24 n)) ∨
    (∃ idx on, i = .voice idx on ∧ idx ≤ 16 ∧ t = s.setAct (setBit s.act idx on)) ∨
    (∃ idx on, i = .voice idx on ∧ 16 < idx ∧ t = s) ∨
    (∃ gv, i = .gain gv ∧ t = s.setGain (BitVec.ofInt 17 (clamp gv 0 65536))) ∨
    (i = .relall ∧ t = s.setAct 0#17) ∨
    (∃ a, i = .rd a ∧ t = s.returnRead (regRead s a)) := by
  cases i with
  | nop => cases h; exact .inl ⟨rfl, rfl⟩
  | cfg rate =>
    change execCfg rate s = _ at h
    rw [execCfg_eq] at h
    cases h
    exact .inr (.inl ⟨rate, rfl, rfl⟩)
  | render n => cases h; exact .inr (.inr (.inl ⟨n, rfl, rfl⟩))
  | voice idx on =>
    change execVoice idx on s = _ at h
    unfold execVoice at h
    split at h
    · cases h; exact .inr (.inr (.inr (.inl ⟨idx, on, rfl, ‹_›, rfl⟩)))
    · cases h; exact .inr (.inr (.inr (.inr (.inl ⟨idx, on, rfl, by omega, rfl⟩))))
  | gain gv => cases h; exact .inr (.inr (.inr (.inr (.inr (.inl ⟨gv, rfl, rfl⟩)))))
  | relall => cases h; exact .inr (.inr (.inr (.inr (.inr (.inr (.inl ⟨rfl, rfl⟩))))))
  | rd a => cases h; exact .inr (.inr (.inr (.inr (.inr (.inr (.inr ⟨a, rfl, rfl⟩))))))

theorem exec_total (i : Instr) (s : State) : ∃ t, exec i s = .next t := by
  cases i with
  | voice idx on =>
    change ∃ t, execVoice idx on s = _
    unfold execVoice
    split <;> exact ⟨_, rfl⟩
  | nop => exact ⟨_, rfl⟩
  | cfg rate => exact ⟨_, rfl⟩
  | render n => exact ⟨_, rfl⟩
  | gain gv => exact ⟨_, rfl⟩
  | relall => exact ⟨_, rfl⟩
  | rd a => exact ⟨_, rfl⟩

/-- What a port's acceptance of a word can do: run the command it decodes to, or nothing (R60, R74). -/
theorem acceptWord_cases (p : Port) (w : Word) (s t : State) (h : acceptWord p w s = .next t) :
    (∃ i, decode p w = .command i ∧ exec i s = .next t) ∨
    (∃ why, decode p w = .ignored why ∧ t = s) := by
  unfold acceptWord at h
  split at h
  · exact .inl ⟨_, ‹_›, h⟩
  · cases h; exact .inr ⟨_, ‹_›, rfl⟩

theorem acceptWord_total (p : Port) (w : Word) (s : State) : ∃ t, acceptWord p w s = .next t := by
  unfold acceptWord
  split
  · exact exec_total _ s
  · exact ⟨s, rfl⟩

/-- What ENG's turn can do (R121). -/
theorem engTurn_cases (s t : State) (h : engTurn s = .next t) :
    (s.rem = 0#24 ∧ s.engIn = [] ∧ t = s) ∨
    (∃ w rest, s.rem = 0#24 ∧ s.engIn = w :: rest ∧
      acceptWord .engine w (s.setEngIn rest) = .next t) ∨
    (s.rem ≠ 0#24 ∧ s.outq.length < s.outqDepth ∧ t = frameStep s) ∨
    (s.rem ≠ 0#24 ∧ s.outqDepth ≤ s.outq.length ∧ t = s) := by
  unfold engTurn at h
  split at h
  · split at h
    · cases h; exact .inl ⟨‹_›, ‹_›, rfl⟩
    · exact .inr (.inl ⟨_, _, ‹_›, ‹_›, h⟩)
  · split at h
    · cases h; exact .inr (.inr (.inl ⟨‹_›, ‹_›, rfl⟩))
    · cases h; exact .inr (.inr (.inr ⟨‹_›, by omega, rfl⟩))

/-- What CTL's turn can do (R128). -/
theorem ctlTurn_cases (s t : State) (h : ctlTurn s = .next t) :
    (s.ctlIn = [] ∧ t = s) ∨
    (∃ w rest, s.ctlIn = w :: rest ∧ acceptWord .control w (s.setCtlIn rest) = .next t) := by
  unfold ctlTurn at h
  split at h
  · cases h; exact .inl ⟨‹_›, rfl⟩
  · exact .inr ⟨_, _, ‹_›, h⟩

theorem runTurn_total (τ : Turn) (s : State) : ∃ t, runTurn τ s = .next t := by
  cases τ with
  | eng =>
    change ∃ t, engTurn s = _
    unfold engTurn
    split
    · split
      · exact ⟨_, rfl⟩
      · exact acceptWord_total _ _ _
    · split <;> exact ⟨_, rfl⟩
  | ctl =>
    change ∃ t, ctlTurn s = _
    unfold ctlTurn
    split
    · exact ⟨_, rfl⟩
    · exact acceptWord_total _ _ _
  | read a => exact exec_total (decodeRead a) s
  | pop => exact ⟨_, rfl⟩
  | offer p w => exact ⟨_, rfl⟩
  | reset e c => exact ⟨_, rfl⟩

/-- What a step can do, by the turn it takes: each agent's own lemma says the rest (R8, R9). -/
theorem step_cases (s t : State) (h : step s = .next t) :
    (s.nextTurn = .eng ∧ engTurn s.takeTurn = .next t) ∨
    (s.nextTurn = .ctl ∧ ctlTurn s.takeTurn = .next t) ∨
    (∃ a, s.nextTurn = .read a ∧ t = s.takeTurn.returnRead (regRead s.takeTurn a.toNat)) ∨
    (s.nextTurn = .pop ∧ t = s.takeTurn.popFrame) ∨
    (∃ p w, s.nextTurn = .offer p w ∧ t = s.takeTurn.offerWord p w) ∨
    (∃ e c, s.nextTurn = .reset e c ∧ t = resetTurn e c s.takeTurn) := by
  change runTurn s.nextTurn s.takeTurn = .next t at h
  revert h
  cases s.nextTurn with
  | eng => intro h; exact .inl ⟨rfl, h⟩
  | ctl => intro h; exact .inr (.inl ⟨rfl, h⟩)
  | read a => intro h; cases h; exact .inr (.inr (.inl ⟨a, rfl, rfl⟩))
  | pop => intro h; cases h; exact .inr (.inr (.inr (.inl ⟨rfl, rfl⟩)))
  | offer p w => intro h; cases h; exact .inr (.inr (.inr (.inr (.inl ⟨p, w, rfl, rfl⟩))))
  | reset e c => intro h; cases h; exact .inr (.inr (.inr (.inr (.inr ⟨e, c, rfl, rfl⟩))))

/-- A step whose turn is known is that turn (R9). -/
theorem step_of_nextTurn (s : State) (τ : Turn) (h : s.nextTurn = τ) :
    step s = runTurn τ s.takeTurn := by
  change runTurn s.nextTurn s.takeTurn = _
  rw [h]

theorem step_of_sched (s : State) (τ : Turn) (ts : List Turn) (h : s.sched = τ :: ts) :
    step s = runTurn τ { s with sched := ts } := by
  rw [step_of_nextTurn s τ (State.nextTurn_of_cons s τ ts h), State.takeTurn_of_cons s τ ts h]

/-- A run whose first step is known goes on from there. -/
theorem core_run_succ (M : Host.Core) (s t : M.State) (k : Nat) (h : M.step s = .next t) :
    M.run (k + 1) s = M.run k t := by
  rw [Host.Core.run, h]

theorem run_succ_of_step (s t : State) (k : Nat) (h : step s = .next t) :
    Sys2Proof.core.run (k + 1) s = Sys2Proof.core.run k t :=
  core_run_succ Sys2Proof.core s t k h

/-- No turn reads the script or writes it: a turn on a state with another script is the same turn (R61). -/
theorem exec_sched (i : Instr) (s t : State) (ts : List Turn) (h : exec i s = .next t) :
    exec i { s with sched := ts } = .next { t with sched := ts } := by
  rcases exec_cases i s t h with ⟨rfl, rfl⟩ | ⟨r, rfl, rfl⟩ | ⟨n, rfl, rfl⟩ | ⟨k, on, rfl, hk, rfl⟩ |
    ⟨k, on, rfl, hk, rfl⟩ | ⟨g, rfl, rfl⟩ | ⟨rfl, rfl⟩ | ⟨a, rfl, rfl⟩
  · rfl
  · change execCfg r _ = _
    rw [execCfg_eq]
  · rfl
  · change execVoice k on _ = _
    unfold execVoice
    rw [if_pos hk]
    rfl
  · change execVoice k on _ = _
    unfold execVoice
    rw [if_neg (by omega)]
  · rfl
  · rfl
  · rfl

theorem acceptWord_sched (p : Port) (w : Word) (s t : State) (ts : List Turn)
    (h : acceptWord p w s = .next t) :
    acceptWord p w { s with sched := ts } = .next { t with sched := ts } := by
  rcases acceptWord_cases p w s t h with ⟨i, hd, he⟩ | ⟨why, hd, rfl⟩
  · unfold acceptWord
    rw [hd]
    exact exec_sched i s t ts he
  · unfold acceptWord
    rw [hd]

theorem mixFrame_sched (s : State) (ts : List Turn) :
    mixFrame { s with sched := ts } = ((mixFrame s).1, { (mixFrame s).2 with sched := ts }) := by
  by_cases h : s.sr = 0#24 ∨ s.act = 0#17
  · rw [mixFrame_silent s h, mixFrame_silent { s with sched := ts } h]
  · have h1 : s.sr ≠ 0#24 := fun h' => h (.inl h')
    have h2 : s.act ≠ 0#17 := fun h' => h (.inr h')
    rw [mixFrame_sounding s h1 h2, mixFrame_sounding { s with sched := ts } h1 h2]
    rfl

theorem frameStep_sched (s : State) (ts : List Turn) :
    frameStep { s with sched := ts } = { frameStep s with sched := ts } := by
  rw [frameStep_eq, frameStep_eq, mixFrame_sched]

theorem runTurn_sched (τ : Turn) (s t : State) (ts : List Turn) (h : runTurn τ s = .next t) :
    runTurn τ { s with sched := ts } = .next { t with sched := ts } := by
  cases τ with
  | eng =>
    change engTurn { s with sched := ts } = _
    rcases engTurn_cases s t h with ⟨h1, h2, rfl⟩ | ⟨w, rest, h1, h2, h3⟩ | ⟨h1, h2, rfl⟩ | ⟨h1, h2, rfl⟩
    · unfold engTurn
      rw [if_pos h1]
      simp only [h2]
    · unfold engTurn
      rw [if_pos h1]
      simp only [h2]
      exact acceptWord_sched .engine w _ t ts h3
    · unfold engTurn
      rw [if_neg h1, if_pos h2, frameStep_sched]
    · unfold engTurn
      rw [if_neg h1, if_neg (by exact Nat.not_lt.mpr h2)]
  | ctl =>
    change ctlTurn { s with sched := ts } = _
    rcases ctlTurn_cases s t h with ⟨h1, rfl⟩ | ⟨w, rest, h1, h2⟩
    · unfold ctlTurn
      simp only [h1]
    · unfold ctlTurn
      simp only [h1]
      exact acceptWord_sched .control w _ t ts h2
  | read a => exact exec_sched (decodeRead a) s t ts h
  | pop =>
    cases h
    change Host.Outcome.next (State.popFrame { s with sched := ts }) = _
    have hc : s.outq = [] ∨ ∃ w rest, s.outq = w :: rest := by
      cases s.outq with
      | nil => exact .inl rfl
      | cons w rest => exact .inr ⟨w, rest, rfl⟩
    rcases hc with hq | ⟨w, rest, hq⟩
    · rw [State.popFrame_nil s hq, State.popFrame_nil { s with sched := ts } hq]
    · rw [State.popFrame_cons s w rest hq, State.popFrame_cons { s with sched := ts } w rest hq]
  | offer p w => cases h; cases p <;> rfl
  | reset e c => cases h; rfl

@[simp] theorem resetTurn_sr (e c : Bool) (s : State) : (resetTurn e c s).sr = 0 := rfl
@[simp] theorem resetTurn_act (e c : Bool) (s : State) : (resetTurn e c s).act = 0 := rfl
@[simp] theorem resetTurn_gain (e c : Bool) (s : State) : (resetTurn e c s).gain = 0 := rfl
@[simp] theorem resetTurn_rem (e c : Bool) (s : State) : (resetTurn e c s).rem = 0 := rfl
@[simp] theorem resetTurn_outq (e c : Bool) (s : State) : (resetTurn e c s).outq = [] := rfl
@[simp] theorem resetTurn_ftw (e c : Bool) (s : State) :
    (resetTurn e c s).ftw = Vector.replicate 17 0 := rfl
@[simp] theorem resetTurn_ph (e c : Bool) (s : State) :
    (resetTurn e c s).ph = Vector.replicate 17 0 := rfl
@[simp] theorem resetTurn_freq (e c : Bool) (s : State) : (resetTurn e c s).freq = s.freq := rfl
@[simp] theorem resetTurn_outqDepth (e c : Bool) (s : State) :
    (resetTurn e c s).outqDepth = s.outqDepth := rfl
@[simp] theorem resetTurn_popped (e c : Bool) (s : State) : (resetTurn e c s).popped = s.popped := rfl
@[simp] theorem resetTurn_reads (e c : Bool) (s : State) : (resetTurn e c s).reads = s.reads := rfl

end Sys2Proof.Machine
end

