-- ==== Sys2Proof/Tests/Slice0.lean ====
section
/-! SUPPORT. The model's own tests, with results from the spec's vectors (95_test_vectors.md) and examples, and
for each statement with hypotheses a concrete state that meets them. -/

namespace Sys2Proof.Tests

open Sys2Proof Sys2Proof.Machine

/-- The state after a step; no step of this machine stops (R170). -/
def stepped (s : State) : State :=
  match step s with
  | .next t => t
  | .fault _ => s
  | .refused _ => s

theorem step_stepped (s : State) : step s = .next (stepped s) := by
  obtain ⟨t, h⟩ := runTurn_total s.nextTurn s.takeTurn
  have hs : step s = .next t := h
  unfold stepped
  rw [hs]

/-- The state after an instruction. -/
def executed (i : Instr) (s : State) : State :=
  match exec i s with
  | .next t => t
  | .fault _ => s
  | .refused _ => s

/-- The reset bank, one turn of the script ahead. -/
def withTurn (τ : Turn) : State := { State.reset with sched := [τ] }

/-- A word of the opcode table, run as the first instruction after reset. -/
def afterWord (w : Nat) : State := stepped (State.reset.withFetchWord 32 w)

/-- A configured bank with a render in progress: ACT, G and voice 9's phase as given, and room in OUTQ. -/
def sounding (act gain : BitVec 17) (ph9 : Word) : State :=
  { State.reset with
    sr := 48000
    ftw := Vector.replicate 17 0x0258BF26#32
    act := act
    gain := gain
    ph := State.reset.ph.set 9 ph9
    rem := 2
    sched := [.eng] }

/-- A render held by a full queue of two frames, as in program P7 step 6. -/
def held : State :=
  { sounding 0x00200 0x10000 0x04B17E4C with
    outqDepth := 2
    rem := 1
    outq := [0x00000000, 0x07110711]
    sched := [.eng, .pop, .eng] }

/-! ## Well-formedness: each range is checked -/

theorem test_wf_refuses_rate : (Instr.cfg 16777216).wf = false := by decide
theorem test_wf_refuses_count : (Instr.render 16777216).wf = false := by decide
theorem test_wf_refuses_index : (Instr.voice 256 true).wf = false := by decide
theorem test_wf_refuses_low_gain : (Instr.gain (-8388609)).wf = false := by decide
theorem test_wf_refuses_high_gain : (Instr.gain 8388608).wf = false := by decide
theorem test_wf_refuses_address : (Instr.rd 256).wf = false := by decide
theorem test_wf_accepts_the_bounds :
    (Instr.cfg 16777215).wf ∧ (Instr.render 0).wf ∧ (Instr.voice 255 false).wf ∧
    (Instr.gain (-8388608)).wf ∧ (Instr.gain 8388607).wf ∧ (Instr.rd 255).wf ∧
    Instr.nop.wf ∧ Instr.relall.wf := by decide

/-! ## Decoding: words written out from the spec's encodings (L2.1, R83) -/

/-- {OP = 00000001, RATE = 48000} (V-DEC1, V-DEC2). -/
theorem test_decode_cfg :
    decode .engine 0b00000001_000000001011101110000000#32 = .command (.cfg 48000) ∧
    decode .control 0x0100BB80#32 = .ignored .wrongPort := by decide

/-- {OP = 00000010, COUNT = 4} (V-DEC3, V-DEC4). -/
theorem test_decode_render :
    decode .engine 0b00000010_000000000000000000000100#32 = .command (.render 4) ∧
    decode .engine 0x02000000#32 = .command (.render 0) := by decide

/-- {OP = 00010000, ignored, ON = 1, IDX = 9} (V-DEC5 to V-DEC9). -/
theorem test_decode_voice :
    decode .control 0b00010000_000000000000000_1_00001001#32 = .command (.voice 9 true) ∧
    decode .engine 0x10000109#32 = .ignored .wrongPort ∧
    decode .control 0x10FFFF09#32 = .command (.voice 9 true) ∧
    decode .control 0x10FFFE09#32 = .command (.voice 9 false) ∧
    decode .control 0x100001FF#32 = .command (.voice 255 true) := by decide

/-- {OP = 00010001, GV = -32768} (V-DEC10 to V-DEC12). -/
theorem test_decode_gain :
    decode .control 0b00010001_111111111000000000000000#32 = .command (.gain (-32768)) ∧
    decode .control 0x11800000#32 = .command (.gain (-8388608)) ∧
    decode .control 0x117FFFFF#32 = .command (.gain 8388607) := by decide

/-- {OP = 00010010, ignored} (V-DEC13, V-DEC14). -/
theorem test_decode_relall :
    decode .control 0b00010010_101010111100110111101111#32 = .command .relall ∧
    decode .engine 0x12000000#32 = .ignored .wrongPort := by decide

/-- {OP = 00000000, ignored} (V-DEC15, V-DEC16). -/
theorem test_decode_nop :
    decode .engine 0b00000000_111111111111111111111111#32 = .command .nop ∧
    decode .control 0x00000000#32 = .command .nop := by decide

/-- Reserved opcodes (V-DEC17 to V-DEC20). -/
theorem test_decode_reserved :
    decode .engine 0x03000000#32 = .ignored .reservedOpcode ∧
    decode .control 0x13000000#32 = .ignored .reservedOpcode ∧
    decode .engine 0xFF123456#32 = .ignored .reservedOpcode ∧
    decode .control 0x0F000001#32 = .ignored .reservedOpcode := by decide

/-- A read-back request is its address byte: 0x59 is PH[9] (R150, R151). -/
theorem test_decode_rd : decodeRead 0b01011001#8 = .rd 0x59 := by decide

/-- The encoder's words of R83. -/
theorem test_encode_listed_words :
    encode (.cfg 44100) = .word 0x0100AC44#32 ∧
    encode (.render 16777215) = .word 0x02FFFFFF#32 ∧
    encode (.voice 9 false) = .word 0x10000009#32 ∧
    encode (.gain (-32768)) = .word 0x11FF8000#32 ∧
    encode (.gain 98304) = .word 0x11018000#32 ∧
    encode .relall = .word 0x12000000#32 ∧ encode .nop = .word 0#32 := by decide

/-- A byte stream, little-endian (R51): CFG 48000, then one byte of the next word. -/
theorem test_decode_bytes :
    decodeBytes .engine [0x80, 0xBB, 0x00, 0x01, 0x04] =
      some (.command (.cfg 48000), [0x04]) ∧
    decodeBytes .engine [0x80, 0xBB, 0x00] = none := by decide

theorem test_decodeTableWord :
    decodeTableWord 32 0x0100BB80 = some (.cfg 48000) ∧
    decodeTableWord 32 0x10000109 = some (.voice 9 true) ∧
    decodeTableWord 32 0x00000000 = some .nop ∧
    decodeTableWord 8 0x59 = some (.rd 0x59) ∧ decodeTableWord 32 0x13000000 = none := by decide

/-! ## The assembler (R81 to R83) -/

theorem test_assemble_listed_lines :
    assembleLine "E: NOP".toList = some (.command .engine 0#32) ∧
    assembleLine "cfg 0xBB80 ; 48 kHz".toList = some (.command .engine 0x0100BB80#32) ∧
    assembleLine "VOICE 9, on".toList = some (.command .control 0x10000109#32) ∧
    assembleLine "GAIN -0.5".toList = some (.command .control 0x11FF8000#32) ∧
    assembleLine "C: .word 0x7F000000".toList = some (.command .control 0x7F000000#32) ∧
    assembleLine "RD 0x59".toList = some (.read 0x59) := by decide

/-- Letter case and tags as assumption log 14 settles them. -/
theorem test_assemble_choices :
    assembleLine "e: cfg 0XBB80".toList = some (.command .engine 0x0100BB80#32) ∧
    assembleLine ".word 0x7F000000".toList = none ∧ assembleLine "C: RD 0".toList = none := by decide

theorem test_assemble_errors :
    assembleLine "NOP".toList = none ∧ assembleLine "CFG 16777216".toList = none ∧
    assembleLine "VOICE 256, 1".toList = none ∧ assembleLine "GAIN 128".toList = none := by decide

theorem test_assemble_pseudo :
    assembleLine "VON 16".toList = some (.command .control 0x10000110#32) ∧
    assembleLine "VOFF 16".toList = some (.command .control 0x10000010#32) ∧
    assembleLine "MUTE".toList = some (.command .control 0x11000000#32) ∧
    assembleLine "UNITY".toList = some (.command .control 0x11010000#32) ∧
    assembleLine "UNCFG".toList = some (.command .engine 0x01000000#32) := by decide

/-! ## The instructions, run as the first step after reset -/

/-- R122's example, and two more rows of L2.2. -/
theorem test_cfg_48000 :
    (afterWord 0x0100BB80).sr = 0x00BB80#24 ∧ (afterWord 0x0100BB80).ftw[9] = 0x0258BF26#32 ∧
    (afterWord 0x0100BB80).ftw[0] = 0x016534C3#32 ∧
    (afterWord 0x0100BB80).ftw[16] = 0x03841A5D#32 := by decide

theorem test_cfg_0_unconfigures :
    (executed (.cfg 0) (afterWord 0x0100BB80)).sr = 0#24 ∧
    (executed (.cfg 0) (afterWord 0x0100BB80)).ftw[9] = 0#32 := by decide

/-- R126's example. -/
theorem test_render_sets_rem : (afterWord 0x02000004).rem = 4#24 := by decide

/-- V-VOI1, V-VOI5, V-VOI6, V-VOI9. -/
theorem test_voice :
    (afterWord 0x10000109).act = 0x00200#17 ∧ (afterWord 0x10000111).act = 0#17 ∧
    (afterWord 0x10000110).act = 0x10000#17 ∧ (afterWord 0x10FFFF00).act = 0x00001#17 := by decide

/-- V-VOI3: ON to OFF, every other voice kept. -/
theorem test_voice_off :
    (executed (.voice 9 false) { State.reset with act := 0x00201 }).act = 0x00001#17 := by decide

/-- V-GAIN1, V-GAIN2, V-GAIN4, V-GAIN8, V-GAIN9. -/
theorem test_gain :
    (afterWord 0x11FF8000).gain = 0#17 ∧ (afterWord 0x11018000).gain = 0x10000#17 ∧
    (afterWord 0x11008000).gain = 0x08000#17 ∧ (afterWord 0x11010001).gain = 0x10000#17 ∧
    (afterWord 0x11FFFFFF).gain = 0#17 := by decide

/-- V-GAIN7, V-GAIN10, V-GAIN11. -/
theorem test_gain_bounds :
    (afterWord 0x1100FFFF).gain = 0x0FFFF#17 ∧ (afterWord 0x117FFFFF).gain = 0x10000#17 ∧
    (afterWord 0x11800000).gain = 0#17 := by decide

/-- V-VOI7. -/
theorem test_relall :
    (executed .relall { State.reset with act := 0x1FFFF }).act = 0#17 := by decide

theorem test_nop_changes_nothing : afterWord 0x00000000 = State.reset := by decide

/-- V-RD1, V-RD10, V-RD11, V-RD12 as the first step after reset. -/
theorem test_rd :
    (stepped (State.reset.withFetchWord 8 0x00)).reads = [0x01200A11#32] ∧
    (stepped (State.reset.withFetchWord 8 0x19)).reads = [0x01B80000#32] ∧
    (stepped (State.reset.withFetchWord 8 0x20)).reads = [0x0293414F#32] ∧
    (stepped (State.reset.withFetchWord 8 0x21)).reads = [0#32] := by decide

/-- STATUS: V-ST1, V-ST2, V-ST4. -/
theorem test_status :
    regRead State.reset 0x01 = 0x00000008#32 ∧ regRead held 0x01 = 0x00000007#32 ∧
    regRead { State.reset with rem := 3 } 0x01 = 0x0000000A#32 := by decide

/-! ## The oscillator and the frame step -/

/-- V-SIN3, V-SIN6, V-SIN8, V-SIN9, V-SIN12, V-SIN13, V-SIN15, V-SIN16, V-SIN19. -/
theorem test_sine :
    oscSine 0x00400000#32 = 201 ∧ oscSine 0x3FC00000#32 = 32766 ∧ oscSine 0x40000000#32 = 32767 ∧
    oscSine 0x40400000#32 = 32766 ∧ oscSine 0x80000000#32 = 0 ∧ oscSine 0x80400000#32 = -201 ∧
    oscSine 0xBFC00000#32 = -32766 ∧ oscSine 0xC0000000#32 = -32767 ∧
    oscSine 0xFFFFFFFF#32 = -201 := by decide

/-- V-SF3 to V-SF7, V-SF10, V-SF11. -/
theorem test_tuning_corners :
    tuningWord 0x5DC00000#32 48000#24 = 0x80000000#32 ∧ tuningWord 0x00010000#32 1#24 = 0#32 ∧
    tuningWord 0x01B80000#32 3#24 = 0xAAAAAAAB#32 ∧ tuningWord 0x00000001#32 131072#24 = 1#32 ∧
    tuningWord 0xFFFFFFFF#32 1#24 = 0xFFFF0000#32 ∧
    tuningWord 0xFFFFFFFF#32 16777215#24 = 0x01000001#32 := by decide

/-- V-TIK4, the wrap of the phase. -/
theorem test_tick_wraps :
    (oscTick 9 { State.reset with
      ph := State.reset.ph.set 9 0xF0000000#32, ftw := State.reset.ftw.set 9 0x20000000#32 }).1 =
      -12539 ∧
    (oscTick 9 { State.reset with
      ph := State.reset.ph.set 9 0xF0000000#32, ftw := State.reset.ftw.set 9 0x20000000#32 }).2.ph[9] =
      0x10000000#32 := by decide

/-- Frame 1 of program P1. -/
theorem test_frame_of_P1 :
    (stepped (sounding 0x00200 0x10000 0x0258BF26)).outq = [0x07110711#32] ∧
    (stepped (sounding 0x00200 0x10000 0x0258BF26)).ph[9] = 0x04B17E4C#32 ∧
    (stepped (sounding 0x00200 0x10000 0x0258BF26)).rem = 1#24 := by decide +kernel

/-- V-MIX4, V-MIX5: truncation toward zero, for both signs. -/
theorem test_frame_truncates_toward_zero :
    (stepped (sounding 0x00200 0x08000 0x40000000)).outq = [0x3FFF3FFF#32] ∧
    (stepped (sounding 0x00200 0x08000 0xC0000000)).outq = [0xC001C001#32] := by decide +kernel

/-- V-MIX9: two voices with samples 32767 and -201, divided by 2. -/
theorem test_frame_normalizes :
    scaleMix (32767 + -201) 0x10000#17 2 = 16283 ∧ scaleMix (1 + -4) 0x10000#17 2 = -1 ∧
    scaleMix 3 0x10000#17 2 = 1 := by decide

/-- V-MIX2, D15: an unconfigured bank is silent and holds its phases. -/
theorem test_frame_unconfigured :
    (stepped { sounding 0x00200 0x10000 0x40000000 with sr := 0 }).outq = [0#32] ∧
    (stepped { sounding 0x00200 0x10000 0x40000000 with sr := 0 }).ph[9] = 0x40000000#32 := by decide

/-- Program P7, step 6: the held render makes no frame. -/
theorem test_held_render : (stepped held).outq = held.outq ∧ (stepped held).rem = 1#24 := by decide

/-- V-RST2. -/
theorem test_reset_discards_the_render :
    stepped { held with sched := [.reset false false] } =
      { State.reset with outqDepth := 2 } := by decide

/-- R200: the word being accepted is discarded, the ones behind it wait (assumption log 6). -/
theorem test_reset_discards_the_word_being_accepted :
    (stepped { withTurn (.reset true true) with
      engIn := [0x0100BB80, 0x02000004], ctlIn := [0x11010000] }).engIn = [0x02000004#32] ∧
    (stepped { withTurn (.reset true true) with
      engIn := [0x0100BB80, 0x02000004], ctlIn := [0x11010000] }).ctlIn = [] := by decide

theorem test_pop : (stepped { held with sched := [.pop] }).outq = [0x07110711#32] ∧
    (stepped { held with sched := [.pop] }).popped = [0x00000000#32] := by decide

/-! ## Witnesses: for each statement with hypotheses, states and operands that meet them together -/

theorem witness_OpcodeMapAndOperands :
    (0x00FFFFFF#32).toNat / 16777216 = 0x00 ∧ (0x01FFFFFF#32).toNat / 16777216 = 0x01 ∧
    (0x02000000#32).toNat / 16777216 = 0x02 ∧ (0x100001FF#32).toNat / 16777216 = 0x10 ∧
    (0x11800000#32).toNat / 16777216 = 0x11 ∧ (0x12FFFFFF#32).toNat / 16777216 = 0x12 ∧
    (0x13000000#32).toNat / 16777216 = 0x13 ∧ (0x03FFFFFF#32).toNat / 16777216 = 0x03 := by decide

theorem witness_IgnoredOperandBitsNeverMatter :
    (opcode 0x00000001#32 = opcode 0x00FFFFFF#32 ∧ opcode 0x00000001#32 = 0x00) ∧
    (opcode 0x12000001#32 = opcode 0x12FFFFFF#32 ∧ opcode 0x12000001#32 = 0x12) ∧
    (opcode 0x10FFFF09#32 = 0x10 ∧ opcode 0x10000109#32 = 0x10 ∧
      (0x10FFFF09#32).extractLsb' 0 9 = (0x10000109#32).extractLsb' 0 9) ∧
    (opcode 0x01000001#32 = 0x01 ∧ decode .engine 0x01000001#32 = decode .engine 0x01000001#32) ∧
    (opcode 0x02FFFFFF#32 = 0x02 ∧ opcode 0x11FFFFFF#32 = 0x11) := by decide

theorem witness_DecodeOfEncodeIsIdentity :
    (Instr.cfg 16777215).wf = true ∧ (Instr.rd 255).wf = true ∧
    accepts .engine (.cfg 16777215) = true := by decide

theorem witness_EncodeOfDecodeKeepsTheWord :
    decode .control 0x10FFFF09#32 = .command (.voice 9 true) ∧
    decode .engine 0x01FFFFFF#32 = .command (.cfg 16777215) ∧
    decode .control 0x12ABCDEF#32 = .command .relall := by decide

theorem witness_AssemblerRoundsTheGain : (0 : Nat) < 2 := by decide

theorem witness_StepRunsTheDecodedInstruction :
    (∃ s : State, s.nextTurn = .eng ∧ s.rem = 0#24 ∧ s.engIn = [0x0100BB80#32] ∧
      decode .engine 0x0100BB80#32 = .command (.cfg 48000)) ∧
    (∃ s : State, s.nextTurn = .ctl ∧ s.ctlIn = [0x12000000#32] ∧
      decode .control 0x12000000#32 = .command .relall) ∧
    ∃ s : State, s.nextTurn = .read 0x59 :=
  ⟨⟨{ withTurn .eng with engIn := [0x0100BB80] }, by decide⟩,
    ⟨{ withTurn .ctl with ctlIn := [0x12000000] }, by decide⟩, ⟨withTurn (.read 0x59), by decide⟩⟩

theorem witness_EveryInterleavingIsAdmitted :
    TurnsRun [.offer .control 0x10000109#32, .ctl] State.reset
      { State.reset with act := 0x00200 } :=
  .cons _ _ _ _ _ rfl (.cons _ _ _ _ _ rfl (.nil _))

theorem witness_EngineTurnFollowsItsRule :
    (∃ s : State, s.nextTurn = .eng ∧ s.rem = 0#24 ∧ s.engIn = []) ∧
    (∃ s : State, s.nextTurn = .eng ∧ s.rem = 0#24 ∧ s.engIn = [0x0100BB80#32]) ∧
    (∃ s : State, s.nextTurn = .eng ∧ s.rem ≠ 0#24 ∧ s.outq.length < s.outqDepth) ∧
    ∃ s : State, s.nextTurn = .eng ∧ s.rem ≠ 0#24 ∧ s.outqDepth ≤ s.outq.length :=
  ⟨⟨withTurn .eng, by decide⟩, ⟨{ withTurn .eng with engIn := [0x0100BB80] }, by decide⟩,
    ⟨sounding 0x00200 0x10000 0, by decide⟩, ⟨held, by decide⟩⟩

theorem witness_ControlPortIsNeverBlocked :
    ∃ s : State, s.nextTurn = .ctl ∧ s.ctlIn = [0x12000000#32] ∧ s.rem ≠ 0#24 ∧
      s.outq.length = s.outqDepth :=
  ⟨{ held with sched := [.ctl], ctlIn := [0x12000000] }, by decide⟩

theorem witness_IgnoredWordsChangeNothing :
    (∃ s : State, s.nextTurn = .eng ∧ s.engIn = [0x10000105#32] ∧ s.rem = 0#24) ∧
    (∃ s : State, s.nextTurn = .eng ∧ s.engIn = [0xFF123456#32] ∧ s.rem ≠ 0#24) ∧
    (∃ s : State, s.nextTurn = .ctl ∧ s.ctlIn = [0x01000000#32]) ∧
    (opcode 0x10000105#32 ≠ 0x00 ∧ opcode 0x10000105#32 ≠ 0x01 ∧ opcode 0x10000105#32 ≠ 0x02 ∧
      opcode 0xFF123456#32 ≠ 0x00 ∧ opcode 0xFF123456#32 ≠ 0x01 ∧ opcode 0xFF123456#32 ≠ 0x02) ∧
    opcode 0x01000000#32 ≠ 0x00 ∧ opcode 0x01000000#32 ≠ 0x10 ∧ opcode 0x01000000#32 ≠ 0x11 ∧
      opcode 0x01000000#32 ≠ 0x12 :=
  ⟨⟨{ withTurn .eng with engIn := [0x10000105] }, by decide⟩,
    ⟨{ held with engIn := [0xFF123456] }, by decide⟩,
    ⟨{ withTurn .ctl with ctlIn := [0x01000000] }, by decide⟩, by decide⟩

theorem witness_OfferedWordsOnlyWait :
    (withTurn (.offer .engine 0x0100BB80)).nextTurn = .offer .engine 0x0100BB80#32 := by decide

theorem witness_NopChangesNothing :
    (∃ s : State, s.nextTurn = .eng ∧ s.engIn = [0x00FFFFFF#32] ∧ s.rem = 0#24) ∧
    (∃ s : State, s.nextTurn = .eng ∧ s.engIn = [0x00FFFFFF#32] ∧ s.rem ≠ 0#24) ∧
    opcode 0x00FFFFFF#32 = 0x00 :=
  ⟨⟨{ withTurn .eng with engIn := [0x00FFFFFF] }, by decide⟩,
    ⟨{ held with engIn := [0x00FFFFFF] }, by decide⟩, by decide⟩

theorem witness_CfgSetsRateAndTuningWords :
    (0 < 16777216 ∧ 16777215 < 16777216) ∧ opcode 0x01FFFFFF#32 = 0x01 ∧
    (∃ s : State, s.nextTurn = .eng ∧ s.engIn = [0x01FFFFFF#32] ∧ s.rem = 0#24) ∧
    ∃ s : State, s.nextTurn = .eng ∧ s.engIn = [0x01FFFFFF#32] ∧ s.rem ≠ 0#24 :=
  ⟨by decide, by decide, ⟨{ withTurn .eng with engIn := [0x01FFFFFF] }, by decide⟩,
    ⟨{ held with engIn := [0x01FFFFFF] }, by decide⟩⟩

theorem witness_TuningWordIsNearestTiesUp :
    (0 < 1 ∧ 1 < 16777216) ∧ 0 < 16777215 ∧ 16777215 < 16777216 := by decide

theorem witness_RenderSetsTheFrameCount :
    (0 < 16777216 ∧ 16777215 < 16777216) ∧ opcode 0x02FFFFFF#32 = 0x02 ∧
    (∃ s : State, s.nextTurn = .eng ∧ s.engIn = [0x02FFFFFF#32] ∧ s.rem = 0#24) ∧
    ∃ s : State, s.nextTurn = .eng ∧ s.engIn = [0x02FFFFFF#32] ∧ s.rem ≠ 0#24 :=
  ⟨by decide, by decide, ⟨{ withTurn .eng with engIn := [0x02FFFFFF] }, by decide⟩,
    ⟨{ held with engIn := [0x02FFFFFF] }, by decide⟩⟩

theorem witness_VoiceWritesOneActiveBit :
    (16 < 17 ∧ ¬ 16 < 16) ∧ opcode 0x100001FF#32 = 0x10 := by decide

theorem witness_GainIsClamped :
    (-1 < (0 : Int) ∧ (65536 : Int) < 65537) ∧ ((0 : Int) ≤ 0 ∧ (0 : Int) ≤ 65536) ∧
    ((0 : Int) ≤ 65536 ∧ (65536 : Int) ≤ 65536) ∧ opcode 0x11800000#32 = 0x11 := by decide

theorem witness_RelallReleasesEveryVoice : opcode 0x12FFFFFF#32 = 0x12 := by decide

/-- One address for each clause, at the ends of each range of the map. -/
theorem witness_ReadbackReturnsTheMappedRegister :
    (0x00 < 256 ∧ 0x07 < 256 ∧ 0xFF < 256) ∧ State.reset.outq.length < 4294967296 ∧
    (0x10 = 0x10 + (0 : Voice).val ∧ 0x20 = 0x10 + (16 : Voice).val) ∧
    (0x30 = 0x30 + (0 : Voice).val ∧ 0x40 = 0x30 + (16 : Voice).val) ∧
    (0x50 = 0x50 + (0 : Voice).val ∧ 0x60 = 0x50 + (16 : Voice).val) ∧
    (regRead held 0x08 = 0#32 ∧ regRead held 0x0F = 0#32 ∧ regRead held 0x21 = 0#32 ∧
      regRead held 0x2F = 0#32 ∧ regRead held 0x41 = 0#32 ∧ regRead held 0x4F = 0#32 ∧
      regRead held 0x61 = 0#32 ∧ regRead held 0xFF = 0#32) ∧
    regRead held 0x20 = 0x0293414F#32 ∧ regRead held 0x40 = 0x0258BF26#32 ∧
    regRead held 0x59 = 0x04B17E4C#32 := by decide

theorem witness_RepeatedCommandsChangeNothing :
    (∀ n, Instr.cfg 48000 ≠ .render n) ∧ (∀ a, Instr.cfg 48000 ≠ .rd a) ∧
    ∃ t, exec (.cfg 48000) State.reset = .next t :=
  ⟨nofun, nofun, _, rfl⟩

theorem witness_DatapathOperationsTouchOneVoice :
    0 < 16777216 ∧ 16777215 < 16777216 ∧ (1 : Voice) ≠ 0 := by decide

theorem witness_SinqIsTheRoundedSine : 0 ≤ 256 ∧ 256 ≤ 256 := by decide

theorem witness_SineFromTheQuarterWave :
    (0x3FFFFFFF#32).toNat / 4194304 < 256 ∧
    (256 ≤ (0x40000000#32).toNat / 4194304 ∧ (0x7FFFFFFF#32).toNat / 4194304 < 512) ∧
    (512 ≤ (0x80000000#32).toNat / 4194304 ∧ (0xBFFFFFFF#32).toNat / 4194304 < 768) ∧
    768 ≤ (0xC0000000#32).toNat / 4194304 := by decide

theorem witness_SineSymmetries : 0 ≤ 512 ∧ 512 ≤ 512 ∧ 0 < 1024 ∧ 1023 < 1024 := by decide

theorem witness_TickSamplesThenAdvances :
    (8 : Voice) ≠ 9 ∧ (sounding 0x00200 0x10000 0).sr ≠ 0#24 ∧
    (sounding 0x00200 0x10000 0).act.getLsbD (9 : Voice).val = true ∧
    (sounding 0x00200 0x10000 0).act.getLsbD (8 : Voice).val = false := by decide

theorem witness_ZeroCrossingsMatchTheFrequency :
    (0x0258BF26#32).toNat < 511 * 4194304 ∧ 1 ≤ 48000 ∧
    (0x7FBFFFFF#32).toNat < 511 * 4194304 ∧ 1 ≤ 1 := by decide

theorem witness_FrameStepMixesOneFrame :
    (∃ s : State, s.nextTurn = .eng ∧ s.rem ≠ 0#24 ∧ s.outq.length < s.outqDepth ∧
      s.sr ≠ 0#24 ∧ s.act ≠ 0#17) ∧
    (∃ s : State, s.nextTurn = .eng ∧ s.rem ≠ 0#24 ∧ s.outq.length < s.outqDepth ∧ s.sr = 0#24) ∧
    ∃ s : State, s.nextTurn = .eng ∧ s.rem ≠ 0#24 ∧ s.outq.length < s.outqDepth ∧ s.act = 0#17 :=
  ⟨⟨sounding 0x00200 0x10000 0, by decide⟩, ⟨{ sounding 0x00200 0x10000 0 with sr := 0 }, by decide⟩,
    ⟨sounding 0 0x10000 0, by decide⟩⟩

theorem witness_FramesNeverExceedTheGain :
    ∃ s : State, s.gain.toNat ≤ 65536 ∧ s.nextTurn = .eng ∧ s.rem ≠ 0#24 ∧
      s.outq.length < s.outqDepth :=
  ⟨sounding 0x1FFFF 0x10000 0x40000000, by decide⟩

theorem witness_SilentFramesAreZero :
    (∃ s : State, s.sr = 0#24 ∧ s.nextTurn = .eng ∧ s.rem ≠ 0#24 ∧ s.outq.length < s.outqDepth) ∧
    ∃ s : State, s.act = 0#17 ∧ s.nextTurn = .eng ∧ s.rem ≠ 0#24 ∧ s.outq.length < s.outqDepth :=
  ⟨⟨{ sounding 0x00200 0x10000 0 with sr := 0 }, by decide⟩, ⟨sounding 0 0x10000 0, by decide⟩⟩

theorem witness_ClampedGainsBoundTheFrame :
    (0 : Int) ≤ 0 ∧ (65536 : Int) ≤ 65536 := by decide

theorem witness_SuperpositionWithinOne : (4 : Voice) ≠ 11 := by decide

theorem witness_SilentVoicesCannotReachTheFrame :
    ∃ s u : State, s ≠ u ∧ (s.sr = 0#24 ↔ u.sr = 0#24) ∧ s.act = u.act ∧ s.gain = u.gain ∧
      ∀ i : Voice, s.act.getLsbD i.val = true → s.ph[i] = u.ph[i] :=
  ⟨sounding 0x00200 0x10000 0x0258BF26,
    { sounding 0x00200 0x10000 0x0258BF26 with
      sr := 44100, ph := (sounding 0x00200 0x10000 0x0258BF26).ph.set 8 0x40000000#32 }, by decide⟩

/-- Two undisturbed runs from one start, one with a pop and one with an idle turn of CTL before the second frame. -/
theorem witness_RenderedFramesAreDetermined :
    ∃ s u t v : State, s ≠ u ∧ s.sr = u.sr ∧ s.ftw = u.ftw ∧ s.ph = u.ph ∧ s.act = u.act ∧
      s.gain = u.gain ∧ 1 < s.rem.toNat ∧ 1 < u.rem.toNat ∧ UndisturbedRun s t ∧
      UndisturbedRun u v ∧ t.delivered.length = 2 ∧ v.delivered.length = 2 := by
  refine ⟨{ sounding 0x00200 0x10000 0x40000000 with sched := [.eng, .pop, .eng] },
    { sounding 0x00200 0x10000 0x40000000 with rem := 5, sched := [.eng, .ctl, .eng] }, _, _,
    by decide, by decide, by decide, by decide, by decide, by decide, by decide, by decide,
    .cons _ _ _ ?_ (step_stepped _) (.cons _ _ _ ?_ (step_stepped _)
      (.cons _ _ _ ?_ (step_stepped _) (.nil _))),
    .cons _ _ _ ?_ (step_stepped _) (.cons _ _ _ ?_ (step_stepped _)
      (.cons _ _ _ ?_ (step_stepped _) (.nil _))), by decide +kernel, by decide +kernel⟩
  · exact ⟨by decide, fun h => absurd h (by decide)⟩
  · exact ⟨by decide +kernel, fun h => absurd h (by decide +kernel)⟩
  · exact ⟨by decide +kernel, fun h => absurd h (by decide +kernel)⟩
  · exact ⟨by decide, fun h => absurd h (by decide)⟩
  · refine ⟨by decide +kernel, fun _ t h => ?_⟩
    obtain rfl : stepped _ = t := Host.Outcome.next.inj ((step_stepped _).symm.trans h)
    exact ⟨by decide +kernel, by decide +kernel⟩
  · exact ⟨by decide +kernel, fun h => absurd h (by decide +kernel)⟩

theorem witness_FramesLeaveInOrderAndNoneIsLost :
    (∃ s : State, s.nextTurn = .pop ∧ s.outq = [0x00000000#32, 0x07110711#32]) ∧
    (∃ s : State, s.nextTurn = .pop ∧ s.outq = []) ∧
    ∃ s t : State, step s = .next t ∧ s.nextTurn.isReset = false ∧ t.delivered ≠ s.delivered :=
  ⟨⟨{ held with sched := [.pop] }, by decide⟩, ⟨withTurn .pop, by decide⟩,
    ⟨sounding 0x00200 0x10000 0, _, step_stepped _, by decide +kernel⟩⟩

theorem witness_RenderHoldsTheEnginePort :
    ∃ s t : State, step s = .next t ∧ s.rem ≠ 0#24 ∧ s.nextTurn.isReset = false :=
  ⟨sounding 0x00200 0x10000 0, _, step_stepped _, by decide +kernel⟩

theorem witness_RenderYieldsExactlyItsCount :
    ∃ s t : State, s.sched = [.eng, .pop] ∧ s.engIn = [] ∧
      (∀ τ ∈ s.sched, τ.isReset = false ∧ τ.offersEngine = false) ∧
      Sys2Proof.core.run 2 s = .next t :=
  ⟨{ sounding 0x00200 0x10000 0 with sched := [.eng, .pop] }, _, by decide, by decide, by decide,
    (run_succ_of_step _ _ _ (step_stepped _)).trans (run_succ_of_step _ _ _ (step_stepped _))⟩

theorem witness_RenderEndsWithinItsCount :
    ∃ s : State, s.sched = [.eng, .ctl, .pop, .eng] ∧ s.engIn = [] ∧
      (∀ τ ∈ s.sched, τ.isReset = false ∧ τ.offersEngine = false) ∧ s.rem = 2#24 ∧
      s.outq.length + s.rem.toNat ≤ s.outqDepth ∧ s.rem.toNat ≤ s.sched.count .eng :=
  ⟨{ sounding 0x00200 0x10000 0 with sched := [.eng, .ctl, .pop, .eng] }, by decide⟩

theorem witness_PopLiftsTheHold :
    held.sched = [.eng, .pop, .eng] ∧ held.rem ≠ 0#24 ∧ held.outq.length = held.outqDepth ∧
      1 ≤ held.outqDepth := by decide

theorem witness_OnlyCfgWritesRateAndTuning :
    ∃ s t : State, step s = .next t ∧ t.sr ≠ s.sr ∧ t.ftw ≠ s.ftw :=
  ⟨State.reset.withFetchWord 32 0x0100BB80, _, rfl, by decide⟩

theorem witness_OnlyControlWordsWriteActAndGain :
    (∃ s t : State, step s = .next t ∧ s.nextTurn.isReset = false ∧ t.act ≠ s.act) ∧
    ∃ s t : State, step s = .next t ∧ s.nextTurn.isReset = false ∧ t.gain ≠ s.gain :=
  ⟨⟨State.reset.withFetchWord 32 0x10000110, _, rfl, by decide⟩,
    ⟨State.reset.withFetchWord 32 0x11010000, _, rfl, by decide⟩⟩

theorem witness_OnlyFramesMovePhases :
    (∃ s t : State, step s = .next t ∧ s.nextTurn.isReset = false ∧ t.ph[(9 : Voice)] ≠ s.ph[(9 : Voice)] ∧
      t.rem ≠ s.rem ∧ t.outq ≠ s.outq) ∧
    (∃ s t : State, step s = .next t ∧ s.nextTurn.isReset = false ∧ s.rem = 0#24 ∧ t.rem ≠ s.rem) ∧
    ∃ s t : State, step s = .next t ∧ s.nextTurn = .pop ∧ t.outq ≠ s.outq :=
  ⟨⟨sounding 0x00200 0x10000 0, _, step_stepped _, by decide +kernel⟩,
    ⟨State.reset.withFetchWord 32 0x02000004, _, rfl, by decide⟩,
    ⟨{ held with sched := [.pop] }, _, rfl, by decide⟩⟩

theorem witness_BuildConstantsNeverChange :
    ∃ t, step (withTurn (.reset false false)) = .next t := ⟨_, rfl⟩

theorem witness_ResetMeetsTheInvariant : 1 ≤ 1 ∧ 1 ≤ 16 := by decide

/-- A sounding bank in mid-render meets the invariant, and steps. -/
theorem witness_EveryStepKeepsTheInvariant :
    ∃ s t : State, s.Inv ∧ s.sr ≠ 0#24 ∧ s.rem ≠ 0#24 ∧ s.outq ≠ [] ∧ step s = .next t := by
  refine ⟨{ afterWord 0x0100BB80 with
      gain := 0x10000, rem := 2, popped := [], outq := [0x07110711], sched := [.eng] }, _,
    ⟨by decide, by decide, by decide, by decide, ?_⟩, by decide, by decide, by decide, step_stepped _⟩
  intro w hw
  obtain rfl : w = 0x07110711#32 := by simpa using hw
  exact ⟨by decide, by decide⟩

theorem witness_ReachableStatesAreLegal :
    Reachable { State.resetOf defaultFreq 1 with sched := [.eng], turns := 0 } :=
  .reset defaultFreq 1 [.eng] 0 (by decide)

theorem witness_ResetClearsTheBank :
    (withTurn (.reset true true)).nextTurn = .reset true true ∧
    (withTurn (.reset true true)).rem = 0#24 := by decide

theorem witness_StatusAndReadbackAfterReset :
    (∃ s : State, s.nextTurn = .reset false false ∧ 1 ≤ s.outqDepth ∧ s.engIn = [] ∧ s.ctlIn = []) ∧
    ∃ s : State, s.nextTurn = .reset false false ∧ 1 ≤ s.outqDepth ∧ s.engIn = [0x0100BB80#32] ∧
      s.ctlIn = [0x11010000#32] :=
  ⟨⟨withTurn (.reset false false), by decide⟩,
    ⟨{ withTurn (.reset false false) with engIn := [0x0100BB80], ctlIn := [0x11010000] }, by decide⟩⟩

theorem witness_ResetKeepsWaitingWords :
    (∃ s : State, s.nextTurn = .reset true false ∧ s.rem = 0#24 ∧ s.engIn = [0x0100BB80#32] ∧
      s.ctlIn = [0x11010000#32]) ∧
    (∃ s : State, s.nextTurn = .reset true false ∧ s.rem ≠ 0#24 ∧ s.engIn = [0x0100BB80#32]) ∧
    ∃ s : State, s.nextTurn = .reset false true ∧ s.engIn = [0x0100BB80#32] ∧
      s.ctlIn = [0x11010000#32] :=
  ⟨⟨{ withTurn (.reset true false) with engIn := [0x0100BB80], ctlIn := [0x11010000] }, by decide⟩,
    ⟨{ held with sched := [.reset true false], engIn := [0x0100BB80] }, by decide⟩,
    ⟨{ withTurn (.reset false true) with engIn := [0x0100BB80], ctlIn := [0x11010000] }, by decide⟩⟩

end Sys2Proof.Tests
end

section
/-! The build constants FREQ and OUTQ_DEPTH (R10, R27, R37): what each agent's turn keeps of them, from the
inversion lemmas of instructions, turns and steps. -/

namespace Sys2Proof.Machine

open Sys2Proof

/-- The OPEN build parameters of a bank (R10). -/
def State.build (s : State) : VoiceRegs × Nat := (s.freq, s.outqDepth)

theorem State.build_eq_iff (s t : State) :
    t.build = s.build ↔ t.freq = s.freq ∧ t.outqDepth = s.outqDepth := Prod.mk_inj

@[simp] theorem State.takeTurn_build (s : State) : s.takeTurn.build = s.build := by
  simp [State.build_eq_iff]

@[simp] theorem State.popFrame_build (s : State) : s.popFrame.build = s.build := by
  simp [State.build_eq_iff]

@[simp] theorem State.offerWord_build (s : State) (p : Port) (w : Word) :
    (s.offerWord p w).build = s.build := by
  simp [State.build_eq_iff]

@[simp] theorem State.returnRead_build (s : State) (v : Word) : (s.returnRead v).build = s.build := rfl

@[simp] theorem State.setEngIn_build (s : State) (ws : List Word) :
    (s.setEngIn ws).build = s.build := rfl

@[simp] theorem State.setCtlIn_build (s : State) (ws : List Word) :
    (s.setCtlIn ws).build = s.build := rfl

@[simp] theorem resetTurn_build (e c : Bool) (s : State) : (resetTurn e c s).build = s.build := rfl

@[simp] theorem frameStep_build (s : State) : (frameStep s).build = s.build := by
  rw [frameStep_eq]
  rfl

/-- No instruction writes a build constant (R122 to R127, R150). -/
theorem exec_keeps_build (i : Instr) (s t : State) (h : exec i s = .next t) : t.build = s.build := by
  rcases exec_cases i s t h with ⟨-, rfl⟩ | ⟨rate, -, rfl⟩ | ⟨n, -, rfl⟩ | ⟨idx, on, -, -, rfl⟩ |
    ⟨idx, on, -, -, rfl⟩ | ⟨gv, -, rfl⟩ | ⟨-, rfl⟩ | ⟨a, -, rfl⟩ <;> rfl

theorem acceptWord_keeps_build (p : Port) (w : Word) (s t : State) (h : acceptWord p w s = .next t) :
    t.build = s.build := by
  rcases acceptWord_cases p w s t h with ⟨i, -, hexec⟩ | ⟨why, -, rfl⟩
  · exact exec_keeps_build i s t hexec
  · rfl

theorem engTurn_keeps_build (s t : State) (h : engTurn s = .next t) : t.build = s.build := by
  rcases engTurn_cases s t h with ⟨-, -, rfl⟩ | ⟨w, rest, -, -, haccept⟩ | ⟨-, -, rfl⟩ | ⟨-, -, rfl⟩
  · rfl
  · simpa using acceptWord_keeps_build _ _ _ _ haccept
  · exact frameStep_build s
  · rfl

theorem ctlTurn_keeps_build (s t : State) (h : ctlTurn s = .next t) : t.build = s.build := by
  rcases ctlTurn_cases s t h with ⟨-, rfl⟩ | ⟨w, rest, -, haccept⟩
  · rfl
  · simpa using acceptWord_keeps_build _ _ _ _ haccept

/-- No agent's turn, reset included, writes a build constant (R10, R200). -/
theorem step_keeps_build (s t : State) (h : step s = .next t) : t.build = s.build := by
  rcases step_cases s t h with ⟨-, heng⟩ | ⟨-, hctl⟩ | ⟨a, -, rfl⟩ | ⟨-, rfl⟩ | ⟨p, w, -, rfl⟩ |
    ⟨e, c, -, rfl⟩
  · simpa using engTurn_keeps_build _ _ heng
  · simpa using ctlTurn_keeps_build _ _ hctl
  · simp
  · simp
  · simp
  · simp

/-- Settles O49: each agent's turn keeps the build of the bank. -/
theorem buildConstantsNeverChange : Obligations.BuildConstantsNeverChange := by
  unfold Obligations.BuildConstantsNeverChange
  intro s t h
  exact (State.build_eq_iff s t).mp (step_keeps_build s t h)

end Sys2Proof.Machine
end

section
/-! The writers of the bank's elements (R23): one inversion lemma that says what a step can make of the bank, one
case per writer. The invariant of R38, its reachable states and the writer rules of R24 to R33 follow from it. -/

namespace Sys2Proof.Machine

open Sys2Proof

/-- The bank's elements, its build constants and the frames popped: a state without the words that wait on the ports,
the values read and the script of turns. -/
def State.stored (s : State) : State :=
  { s with engIn := [], ctlIn := [], reads := [], sched := [], turns := 0 }

theorem State.elements_of_stored_eq {s t : State} (h : t.stored = s.stored) :
    t.sr = s.sr ∧ t.ftw = s.ftw ∧ t.ph = s.ph ∧ t.act = s.act ∧ t.gain = s.gain ∧ t.rem = s.rem ∧
      t.outq = s.outq := by
  simp only [State.stored, State.mk.injEq] at h
  tauto

@[simp] theorem State.takeTurn_stored (s : State) : s.takeTurn.stored = s.stored := by
  unfold State.takeTurn; split <;> rfl

@[simp] theorem State.offerWord_stored (s : State) (p : Port) (w : Word) :
    (s.offerWord p w).stored = s.stored := by
  cases p <;> rfl

@[simp] theorem State.returnRead_stored (s : State) (v : Word) : (s.returnRead v).stored = s.stored := rfl

@[simp] theorem State.setEngIn_stored (s : State) (ws : List Word) : (s.setEngIn ws).stored = s.stored := rfl

@[simp] theorem State.setCtlIn_stored (s : State) (ws : List Word) : (s.setCtlIn ws).stored = s.stored := rfl

@[simp] theorem State.setAct_stored (s : State) (v : BitVec 17) :
    (s.setAct v).stored = s.stored.setAct v := rfl

@[simp] theorem State.setGain_stored (s : State) (v : BitVec 17) :
    (s.setGain v).stored = s.stored.setGain v := rfl

@[simp] theorem State.setRem_stored (s : State) (v : BitVec 24) :
    (s.setRem v).stored = s.stored.setRem v := rfl

@[simp] theorem resetTurn_stored (e c : Bool) (s : State) :
    (resetTurn e c s).stored = s.stored.resetBank := rfl

@[simp] theorem State.resetBank_stored (s : State) : s.resetBank.stored = s.stored.resetBank := rfl

@[simp] theorem State.popFrame_stored (s : State) : s.popFrame.stored = s.stored.popFrame := by
  cases hq : s.outq with
  | nil => rw [State.popFrame_nil s hq, State.popFrame_nil s.stored hq]
  | cons w rest => rw [State.popFrame_cons s w rest hq, State.popFrame_cons s.stored w rest hq]; rfl

theorem mixFrame_stored (s : State) : mixFrame s.stored = ((mixFrame s).1, (mixFrame s).2.stored) := by
  by_cases hsilent : s.sr = 0#24 ∨ s.act = 0#17
  · rw [mixFrame_silent s hsilent, mixFrame_silent s.stored hsilent]
  · obtain ⟨hsr, hact⟩ := not_or.mp hsilent
    rw [mixFrame_sounding s hsr hact, mixFrame_sounding s.stored hsr hact]
    rfl

@[simp] theorem frameStep_stored (s : State) : (frameStep s).stored = frameStep s.stored := by
  rw [frameStep_eq, frameStep_eq, mixFrame_stored]
  rfl

@[simp] theorem frameStep_sr (s : State) : (frameStep s).sr = s.sr := by rw [frameStep_eq]
@[simp] theorem frameStep_ftw (s : State) : (frameStep s).ftw = s.ftw := by rw [frameStep_eq]
@[simp] theorem frameStep_act (s : State) : (frameStep s).act = s.act := by rw [frameStep_eq]
@[simp] theorem frameStep_gain (s : State) : (frameStep s).gain = s.gain := by rw [frameStep_eq]
@[simp] theorem frameStep_outq (s : State) :
    (frameStep s).outq = s.outq ++ [frameWord (mixFrame s).1] := by rw [frameStep_eq]
@[simp] theorem frameStep_freq (s : State) : (frameStep s).freq = s.freq := by rw [frameStep_eq]
@[simp] theorem frameStep_outqDepth (s : State) : (frameStep s).outqDepth = s.outqDepth := by
  rw [frameStep_eq]
@[simp] theorem frameStep_popped (s : State) : (frameStep s).popped = s.popped := by rw [frameStep_eq]
@[simp] theorem frameStep_ph (s : State) : (frameStep s).ph = (mixFrame s).2.ph := by rw [frameStep_eq]

/-- The bank after CFG: the rate, and every tuning word from it (R122). -/
def State.configured (s : State) (rate : BitVec 24) : State :=
  { s with sr := rate, ftw := Vector.ofFn fun i => tuningWord s.freq[i] rate }

@[simp] theorem State.configured_stored (s : State) (rate : BitVec 24) :
    (s.configured rate).stored = s.stored.configured rate := rfl

/-- What a step from `s` can make of the bank, with the turn that does it: one case per writer of R23's table. -/
inductive BankStep (s : State) : State → Prop where
  | quiet : BankStep s s
  | cfg (w : Word) (rest : List Word) (rate : Nat) (hturn : s.nextTurn = .eng) (hrem : s.rem = 0#24)
      (hin : s.engIn = w :: rest) (hdec : decode .engine w = .command (.cfg rate)) :
      BankStep s (s.configured (BitVec.ofNat 24 rate))
  | render (w : Word) (rest : List Word) (n : Nat) (hturn : s.nextTurn = .eng) (hrem : s.rem = 0#24)
      (hin : s.engIn = w :: rest) (hdec : decode .engine w = .command (.render n)) :
      BankStep s (s.setRem (BitVec.ofNat 24 n))
  | frame (hturn : s.nextTurn = .eng) (hrem : s.rem ≠ 0#24) (hroom : s.outq.length < s.outqDepth) :
      BankStep s (frameStep s)
  | voice (w : Word) (rest : List Word) (idx : Nat) (on : Bool) (hturn : s.nextTurn = .ctl)
      (hin : s.ctlIn = w :: rest) (hidx : idx ≤ 16)
      (hdec : decode .control w = .command (.voice idx on)) :
      BankStep s (s.setAct (setBit s.act idx on))
  | gain (w : Word) (rest : List Word) (gv : Int) (hturn : s.nextTurn = .ctl)
      (hin : s.ctlIn = w :: rest) (hdec : decode .control w = .command (.gain gv)) :
      BankStep s (s.setGain (BitVec.ofInt 17 (clamp gv 0 65536)))
  | relall (w : Word) (rest : List Word) (hturn : s.nextTurn = .ctl)
      (hin : s.ctlIn = w :: rest) (hdec : decode .control w = .command .relall) :
      BankStep s (s.setAct 0#17)
  | pop (hturn : s.nextTurn = .pop) : BankStep s s.popFrame
  | reset (e c : Bool) (hturn : s.nextTurn = .reset e c) : BankStep s s.resetBank

/-- A command of the engine port is NOP, CFG or RENDER (R73, R121). -/
theorem bankStep_of_engine_command (s t : State) (w : Word) (rest : List Word) (i : Instr)
    (hturn : s.nextTurn = .eng) (hrem : s.rem = 0#24) (hin : s.engIn = w :: rest)
    (hdec : decode .engine w = .command i) (hexec : exec i (s.takeTurn.setEngIn rest) = .next t) :
    ∃ u, BankStep s u ∧ t.stored = u.stored := by
  have hport : accepts .engine i = true := ((decode_eq_command _ _ _).mp hdec).2
  rcases exec_cases _ _ _ hexec with ⟨-, rfl⟩ | ⟨rate, rfl, rfl⟩ | ⟨n, rfl, rfl⟩ | ⟨idx, on, rfl, -, -⟩ |
    ⟨idx, on, rfl, -, -⟩ | ⟨gv, rfl, -⟩ | ⟨rfl, -⟩ | ⟨a, rfl, -⟩
  · exact ⟨s, .quiet, by simp⟩
  · exact ⟨_, .cfg w rest rate hturn hrem hin hdec, by simp [State.stored, State.configured]⟩
  · exact ⟨_, .render w rest n hturn hrem hin hdec, by simp⟩
  all_goals cases hport

/-- A command of the control port is NOP, VOICE, GAIN or RELALL (R73, R128). -/
theorem bankStep_of_control_command (s t : State) (w : Word) (rest : List Word) (i : Instr)
    (hturn : s.nextTurn = .ctl) (hin : s.ctlIn = w :: rest)
    (hdec : decode .control w = .command i) (hexec : exec i (s.takeTurn.setCtlIn rest) = .next t) :
    ∃ u, BankStep s u ∧ t.stored = u.stored := by
  have hport : accepts .control i = true := ((decode_eq_command _ _ _).mp hdec).2
  rcases exec_cases _ _ _ hexec with ⟨-, rfl⟩ | ⟨rate, rfl, -⟩ | ⟨n, rfl, -⟩ | ⟨idx, on, rfl, hidx, rfl⟩ |
    ⟨idx, on, rfl, -, rfl⟩ | ⟨gv, rfl, rfl⟩ | ⟨rfl, rfl⟩ | ⟨a, rfl, -⟩
  · exact ⟨s, .quiet, by simp⟩
  · cases hport
  · cases hport
  · exact ⟨_, .voice w rest idx on hturn hin hidx hdec, by simp⟩
  · exact ⟨s, .quiet, by simp⟩
  · exact ⟨_, .gain w rest gv hturn hin hdec, by simp⟩
  · exact ⟨_, .relall w rest hturn hin hdec, by simp⟩
  · cases hport

theorem bankStep_of_engTurn (s t : State) (hturn : s.nextTurn = .eng)
    (h : engTurn s.takeTurn = .next t) : ∃ u, BankStep s u ∧ t.stored = u.stored := by
  rcases engTurn_cases _ _ h with ⟨-, -, rfl⟩ | ⟨w, rest, hrem, hin, haccept⟩ | ⟨hrem, hroom, rfl⟩ |
    ⟨-, -, rfl⟩
  · exact ⟨s, .quiet, by simp⟩
  · rw [State.takeTurn_rem] at hrem
    rw [State.takeTurn_engIn] at hin
    rcases acceptWord_cases _ _ _ _ haccept with ⟨i, hdec, hexec⟩ | ⟨why, -, rfl⟩
    · exact bankStep_of_engine_command s t w rest i hturn hrem hin hdec hexec
    · exact ⟨s, .quiet, by simp⟩
  · exact ⟨_, .frame hturn (by simpa using hrem) (by simpa using hroom), by simp⟩
  · exact ⟨s, .quiet, by simp⟩

theorem bankStep_of_ctlTurn (s t : State) (hturn : s.nextTurn = .ctl)
    (h : ctlTurn s.takeTurn = .next t) : ∃ u, BankStep s u ∧ t.stored = u.stored := by
  rcases ctlTurn_cases _ _ h with ⟨-, rfl⟩ | ⟨w, rest, hin, haccept⟩
  · exact ⟨s, .quiet, by simp⟩
  · rw [State.takeTurn_ctlIn] at hin
    rcases acceptWord_cases _ _ _ _ haccept with ⟨i, hdec, hexec⟩ | ⟨why, -, rfl⟩
    · exact bankStep_of_control_command s t w rest i hturn hin hdec hexec
    · exact ⟨s, .quiet, by simp⟩

/-- Every step leaves the bank as one of R23's writers does, or as it was. -/
theorem bankStep_of_step (s t : State) (h : step s = .next t) :
    ∃ u, BankStep s u ∧ t.stored = u.stored := by
  rcases step_cases s t h with ⟨hturn, heng⟩ | ⟨hturn, hctl⟩ | ⟨a, -, rfl⟩ | ⟨hturn, rfl⟩ |
    ⟨p, w, -, rfl⟩ | ⟨e, c, hturn, rfl⟩
  · exact bankStep_of_engTurn s t hturn heng
  · exact bankStep_of_ctlTurn s t hturn hctl
  · exact ⟨s, .quiet, by simp⟩
  · exact ⟨_, .pop hturn, by simp⟩
  · exact ⟨s, .quiet, by simp⟩
  · exact ⟨_, .reset e c hturn, by simp⟩

/-! ## The invariant (R38) -/

/-- The invariant speaks of the bank and the frames popped alone. -/
theorem State.inv_stored (s : State) : s.stored.Inv ↔ s.Inv :=
  ⟨fun h => ⟨h.gain_le, h.depth_pos, h.outq_le, h.ftw_eq, h.frames_good⟩,
    fun h => ⟨h.gain_le, h.depth_pos, h.outq_le, h.ftw_eq, h.frames_good⟩⟩

/-- A bank with no gain, no rate and no tuning word, whose OUTQ is empty, meets the invariant (R200, R201). -/
theorem State.inv_of_cleared (s : State) (hgain : s.gain = 0) (hdepth : 1 ≤ s.outqDepth)
    (houtq : s.outq = []) (hsr : s.sr = 0) (hftw : s.ftw = Vector.replicate 17 0)
    (hpopped : ∀ w ∈ s.popped, GoodFrame w) : s.Inv where
  gain_le := by simp [hgain]
  depth_pos := hdepth
  outq_le := by simp [houtq]
  ftw_eq i := by rw [hsr, hftw, show (0 : BitVec 24) = 0#24 from rfl, tuningWord_zero]; simp
  frames_good := by simpa [houtq] using hpopped

/-- GAIN's operand is clamped into the legal range (R31, R124). -/
theorem clampedGain_le (gv : Int) : (BitVec.ofInt 17 (clamp gv 0 65536)).toNat ≤ 65536 := by
  have hclamp := clamp_mem gv 0 65536 (by norm_num)
  rw [BitVec.toNat_ofInt]
  omega

theorem inv_frameStep (s : State) (hinv : s.Inv) (hroom : s.outq.length < s.outqDepth) :
    (frameStep s).Inv where
  gain_le := by simpa using hinv.gain_le
  depth_pos := by simpa using hinv.depth_pos
  outq_le := by simpa using hroom
  ftw_eq := by simpa using hinv.ftw_eq
  frames_good w hw := by
    simp only [frameStep_popped, frameStep_outq, ← List.append_assoc, List.mem_append,
      List.mem_singleton] at hw
    rcases hw with hold | rfl
    · exact hinv.frames_good w (List.mem_append.mpr hold)
    · exact goodFrame_mixFrame s hinv.gain_le

theorem inv_popFrame (s : State) (hinv : s.Inv) : s.popFrame.Inv where
  gain_le := by simpa using hinv.gain_le
  depth_pos := by simpa using hinv.depth_pos
  outq_le := by
    have hle := hinv.outq_le
    cases hq : s.outq with
    | nil => rwa [State.popFrame_nil s hq]
    | cons w rest =>
      rw [hq, List.length_cons] at hle
      rw [State.popFrame_cons s w rest hq]
      exact Nat.le_of_succ_le hle
  ftw_eq := by simpa using hinv.ftw_eq
  frames_good := by simpa using hinv.frames_good

theorem bankStep_keeps_inv (s u : State) (hinv : s.Inv) (hstep : BankStep s u) : u.Inv := by
  have ⟨hgain, hdepth, houtq, hftw, hframes⟩ := hinv
  cases hstep with
  | quiet => exact hinv
  | cfg w rest rate => exact ⟨hgain, hdepth, houtq, fun i => by simp [State.configured], hframes⟩
  | render w rest n => exact ⟨hgain, hdepth, houtq, hftw, hframes⟩
  | frame hturn hrem hroom => exact inv_frameStep s hinv hroom
  | voice w rest idx on => exact ⟨hgain, hdepth, houtq, hftw, hframes⟩
  | gain w rest gv => exact ⟨clampedGain_le gv, hdepth, houtq, hftw, hframes⟩
  | relall w rest => exact ⟨hgain, hdepth, houtq, hftw, hframes⟩
  | pop => exact inv_popFrame s hinv
  | reset e c =>
    exact State.inv_of_cleared s.resetBank rfl hdepth rfl rfl rfl
      fun w hw => hframes w (List.mem_append_left _ hw)

/-- Settles O51: each writer of the bank keeps the invariant, and nothing else of a step can break it. -/
theorem everyStepKeepsTheInvariant : Obligations.EveryStepKeepsTheInvariant := by
  unfold Obligations.EveryStepKeepsTheInvariant
  intro s t hinv h
  obtain ⟨u, hstep, hstored⟩ := bankStep_of_step s t h
  rw [← t.inv_stored, hstored, u.inv_stored]
  exact bankStep_keeps_inv s u hinv hstep

/-- Settles O50: the state after reset is cleared, whatever the build. -/
theorem resetMeetsTheInvariant : Obligations.ResetMeetsTheInvariant := by
  unfold Obligations.ResetMeetsTheInvariant
  have hreset : ∀ (freq : VoiceRegs) (depth : Nat), 1 ≤ depth → (State.resetOf freq depth).Inv :=
    fun freq depth hdepth =>
      State.inv_of_cleared _ rfl hdepth rfl rfl rfl fun w hw => absurd hw List.not_mem_nil
  exact ⟨hreset, hreset defaultFreq 16 (by decide)⟩

theorem inv_of_reachable (s : State) (hs : Reachable s) : s.Inv := by
  induction hs with
  | reset freq outqDepth sched turns hdepth =>
    exact (State.inv_stored _).mp (resetMeetsTheInvariant.1 freq outqDepth hdepth)
  | step s t _ h hinv => exact everyStepKeepsTheInvariant s t hinv h

/-- Settles O52: reachable states meet the invariant, whose tuning words are 0 at rate 0. -/
theorem reachableStatesAreLegal : Obligations.ReachableStatesAreLegal := by
  unfold Obligations.ReachableStatesAreLegal
  intro s hs
  have hinv := inv_of_reachable s hs
  refine ⟨hinv.gain_le, hinv.outq_le, fun hsr i => ?_⟩
  rw [hinv.ftw_eq, hsr, tuningWord_zero]

/-! ## Who writes what (R23) -/

/-- Settles O46: of the bank's writers, only CFG and reset touch SR or FTW. -/
theorem onlyCfgWritesRateAndTuning : Obligations.OnlyCfgWritesRateAndTuning := by
  unfold Obligations.OnlyCfgWritesRateAndTuning
  intro s t h hchange
  obtain ⟨u, hstep, hstored⟩ := bankStep_of_step s t h
  obtain ⟨hsr, hftw, -⟩ := State.elements_of_stored_eq hstored
  rw [hsr, hftw] at hchange
  cases hstep with
  | cfg w rest rate hturn hrem hin hdec => exact .inr ⟨hturn, hrem, w, rest, rate, hin, hdec⟩
  | reset e c hturn => exact .inl (by rw [hturn]; rfl)
  | quiet | render | frame | voice | gain | relall | pop => simp at hchange

/-- Settles O47: of the bank's writers but reset, only VOICE and RELALL touch ACT, and only GAIN touches G. -/
theorem onlyControlWordsWriteActAndGain : Obligations.OnlyControlWordsWriteActAndGain := by
  unfold Obligations.OnlyControlWordsWriteActAndGain
  intro s t h hreset
  obtain ⟨u, hstep, hstored⟩ := bankStep_of_step s t h
  obtain ⟨-, -, -, hact, hgain, -⟩ := State.elements_of_stored_eq hstored
  rw [hact, hgain]
  cases hstep with
  | voice w rest idx on hturn hin hidx hdec =>
    exact ⟨fun _ => ⟨hturn, w, rest, hin, .inr ⟨idx, on, hidx, hdec⟩⟩, fun hne => absurd rfl hne⟩
  | relall w rest hturn hin hdec =>
    exact ⟨fun _ => ⟨hturn, w, rest, hin, .inl hdec⟩, fun hne => absurd rfl hne⟩
  | gain w rest gv hturn hin hdec =>
    exact ⟨fun hne => absurd rfl hne, fun _ => ⟨hturn, w, rest, gv, hin, hdec⟩⟩
  | reset e c hturn => rw [hturn] at hreset; cases hreset
  | quiet | cfg | render | frame | pop => simp [State.configured]

/-- A phase moves in a frame step only if the bank is configured and the voice active (R26, R130). -/
theorem frameStep_moves_phase (s : State) (i : Voice) (h : (frameStep s).ph[i] ≠ s.ph[i]) :
    s.sr ≠ 0#24 ∧ s.act.getLsbD i.val = true := by
  rw [frameStep_ph, mixFrame_ph] at h
  by_contra hheld
  exact h (if_neg hheld)

/-- Settles O48: of the bank's writers but reset, only the frame step moves phases, only it and RENDER write REM,
and only it and the pop write OUTQ. -/
theorem onlyFramesMovePhases : Obligations.OnlyFramesMovePhases := by
  unfold Obligations.OnlyFramesMovePhases
  intro s t h hreset
  obtain ⟨u, hstep, hstored⟩ := bankStep_of_step s t h
  obtain ⟨-, -, hph, -, -, hrem', houtq⟩ := State.elements_of_stored_eq hstored
  rw [hph, hrem', houtq]
  cases hstep with
  | frame hturn hrem hroom =>
    exact ⟨fun i hne => ⟨hturn, hrem, hroom, frameStep_moves_phase s i hne⟩,
      fun _ => ⟨hturn, .inl ⟨hrem, hroom⟩⟩, fun _ => .inr ⟨hturn, hrem, hroom⟩⟩
  | render w rest n hturn hrem hin hdec =>
    exact ⟨fun i hne => absurd rfl hne, fun _ => ⟨hturn, .inr ⟨hrem, w, rest, n, hin, hdec⟩⟩,
      fun hne => absurd rfl hne⟩
  | pop hturn => exact ⟨by simp, by simp, fun _ => .inl hturn⟩
  | reset e c hturn => rw [hturn] at hreset; cases hreset
  | quiet | cfg | voice | gain | relall => simp [State.configured]

end Sys2Proof.Machine
end

section
/-! The reset input and what the host sees after it (R35, R37, R200, R201). -/

namespace Sys2Proof.Machine

open Sys2Proof

/-! ## STATUS and the read-back map -/

/-- STATUS as the sum of its four flags' weights (R35). -/
theorem State.status_toNat (s : State) :
    s.status.toNat = s.cfgd.toNat + 2 * s.busy.toNat + 4 * s.qfull.toNat + 8 * s.qempty.toNat := by
  unfold State.status
  cases s.cfgd <;> cases s.busy <;> cases s.qfull <;> cases s.qempty <;> decide

theorem regRead_status (s : State) : regRead s 0x01 = s.status := rfl

theorem regRead_freq (s : State) (i : Voice) : regRead s (0x10 + i.val) = s.freq[i] := by
  have hi := i.isLt
  rw [regRead, if_neg (by omega), if_pos (by omega), Nat.add_sub_cancel_left, voiceReg, dif_pos hi]
  rfl

theorem State.cfgd_weight (s : State) : s.cfgd.toNat = if s.sr = 0#24 then 0 else 1 := by
  rw [State.cfgd]; split_ifs with h <;> simp [h]

theorem State.busy_weight (s : State) : 2 * s.busy.toNat = if s.rem = 0#24 then 0 else 2 := by
  rw [State.busy]; split_ifs with h <;> simp [h]

theorem State.qfull_weight (s : State) :
    4 * s.qfull.toNat = if s.outq.length = s.outqDepth then 4 else 0 := by
  rw [State.qfull]; split_ifs with h <;> simp [h]

theorem State.qempty_weight (s : State) : 8 * s.qempty.toNat = if s.outq = [] then 8 else 0 := by
  rw [State.qempty]; cases s.outq <;> simp

/-- STATUS as the read-back port shows it, by the elements its flags are computed from (R35). -/
theorem regRead_status_toNat (s : State) :
    (regRead s 0x01).toNat =
      (if s.sr = 0#24 then 0 else 1) + (if s.rem = 0#24 then 0 else 2) +
      (if s.outq.length = s.outqDepth then 4 else 0) + (if s.outq = [] then 8 else 0) := by
  rw [regRead_status, State.status_toNat, State.cfgd_weight, State.busy_weight, State.qfull_weight,
    State.qempty_weight]

/-- The control registers of an unconfigured, idle, silent bank read 0, and STATUS only QEMPTY (R201). -/
theorem regRead_of_cleared (s : State) (hsr : s.sr = 0) (hgain : s.gain = 0) (hact : s.act = 0)
    (hrem : s.rem = 0) (houtq : s.outq = []) (hdepth : 1 ≤ s.outqDepth) :
    regRead s 0x01 = 0x00000008#32 ∧ ∀ a, 2 ≤ a → a ≤ 7 → regRead s a = 0#32 := by
  constructor
  · apply BitVec.eq_of_toNat_eq
    have hnotfull : ¬ 0 = s.outqDepth := by omega
    rw [regRead_status_toNat]
    simp [hsr, hrem, houtq, hnotfull]
  · intro a hlo hhi
    have hnact : s.nact = 0#32 := by
      rw [State.nact, State.nActive, (popcount_eq_zero_iff s.act).mpr hact]
    interval_cases a <;> simp [regRead, lowReg, hsr, hgain, hact, hrem, hnact, State.qcount, houtq]

/-! ## The reset turn, and the words that wait -/

@[simp] theorem resetTurn_engIn (e c : Bool) (s : State) :
    (resetTurn e c s).engIn = dropAccepting (e && decide (s.rem = 0#24)) s.engIn := rfl

@[simp] theorem resetTurn_ctlIn (e c : Bool) (s : State) :
    (resetTurn e c s).ctlIn = dropAccepting c s.ctlIn := rfl

theorem step_reset (s : State) (e c : Bool) (hturn : s.nextTurn = .reset e c) :
    step s = .next (resetTurn e c s.takeTurn) :=
  step_of_nextTurn s _ hturn

/-- Settles O55: the reset turn drops the accepted words alone. -/
theorem resetKeepsWaitingWords : Obligations.ResetKeepsWaitingWords := by
  unfold Obligations.ResetKeepsWaitingWords
  intro s e c hturn
  refine ⟨_, step_reset s e c hturn, ?_, ?_, by simp, by simp⟩
  · simp [dropAccepting]
  · simp [dropAccepting]

/-- No instruction touches the words that wait (R60). -/
theorem exec_keeps_waiting (i : Instr) (s t : State) (h : exec i s = .next t) :
    t.engIn = s.engIn ∧ t.ctlIn = s.ctlIn := by
  rcases exec_cases i s t h with ⟨-, rfl⟩ | ⟨rate, -, rfl⟩ | ⟨n, -, rfl⟩ | ⟨idx, on, -, -, rfl⟩ |
    ⟨idx, on, -, -, rfl⟩ | ⟨gv, -, rfl⟩ | ⟨-, rfl⟩ | ⟨a, -, rfl⟩ <;> exact ⟨rfl, rfl⟩

theorem acceptWord_keeps_waiting (p : Port) (w : Word) (s t : State) (h : acceptWord p w s = .next t) :
    t.engIn = s.engIn ∧ t.ctlIn = s.ctlIn := by
  rcases acceptWord_cases p w s t h with ⟨i, -, hexec⟩ | ⟨why, -, rfl⟩
  · exact exec_keeps_waiting i s t hexec
  · exact ⟨rfl, rfl⟩

theorem engTurn_idle (s : State) (hrem : s.rem = 0#24) (hin : s.engIn = []) : engTurn s = .next s := by
  rw [engTurn, if_pos hrem, hin]

theorem ctlTurn_idle (s : State) (hin : s.ctlIn = []) : ctlTurn s = .next s := by
  rw [ctlTurn, hin]

/-- With REM = 0, ENG accepts the word offered first, and leaves the others waiting (R121). -/
theorem engTurn_accepts (s : State) (w : Word) (rest : List Word) (hrem : s.rem = 0#24)
    (hin : s.engIn = w :: rest) : ∃ u, engTurn s = .next u ∧ u.engIn = rest := by
  obtain ⟨u, hu⟩ := acceptWord_total .engine w (s.setEngIn rest)
  refine ⟨u, ?_, (acceptWord_keeps_waiting _ _ _ _ hu).1⟩
  rw [engTurn, if_pos hrem, hin, ← hu]

/-- CTL accepts the word offered first, and leaves the others waiting (R128). -/
theorem ctlTurn_accepts (s : State) (w : Word) (rest : List Word) (hin : s.ctlIn = w :: rest) :
    ∃ u, ctlTurn s = .next u ∧ u.ctlIn = rest := by
  obtain ⟨u, hu⟩ := acceptWord_total .control w (s.setCtlIn rest)
  refine ⟨u, ?_, (acceptWord_keeps_waiting _ _ _ _ hu).2⟩
  rw [ctlTurn, hin, ← hu]

/-- Settles O54: STATUS is its flags' sum, and the state after a reset is cleared, so its registers read so and both
sequencers are ready for a word. -/
theorem statusAndReadbackAfterReset : Obligations.StatusAndReadbackAfterReset := by
  unfold Obligations.StatusAndReadbackAfterReset
  refine ⟨regRead_status_toNat, fun s e c hturn hdepth => ?_⟩
  obtain ⟨hstatus, hzero⟩ := regRead_of_cleared (resetTurn e c s.takeTurn) rfl rfl rfl rfl rfl
    (by simpa using hdepth)
  refine ⟨_, step_reset s e c hturn, hstatus, hzero 2 (by omega) (by omega), hzero 3 (by omega) (by omega),
    hzero 4 (by omega) (by omega), hzero 5 (by omega) (by omega), hzero 6 (by omega) (by omega),
    hzero 7 (by omega) (by omega), fun i => ?_, engTurn_idle _ rfl, ctlTurn_idle _,
    fun w rest => engTurn_accepts _ w rest rfl, ctlTurn_accepts _⟩
  rw [regRead_freq, resetTurn_freq, State.takeTurn_freq]

end Sys2Proof.Machine
end

section
/-! SINQ against the real sine (R29): a Taylor polynomial of the sine with its error, the same polynomial at a rational
angle near (pi/2) * k/256, and a comparison with the table in rational arithmetic. -/

namespace Sys2Proof.Machine

open Sys2Proof

/-- The sine's Taylor polynomial with `n` terms. -/
def sinTaylor {K : Type} [Field K] (n : ℕ) (x : K) : K :=
  ∑ j ∈ Finset.range n, (-1) ^ j * x ^ (2 * j + 1) / ((2 * j + 1).factorial : K)

/-- The cosine's Taylor polynomial with `n` terms. -/
def cosTaylor {K : Type} [Field K] (n : ℕ) (x : K) : K :=
  ∑ j ∈ Finset.range n, (-1) ^ j * x ^ (2 * j) / ((2 * j).factorial : K)

theorem sinTaylor_ratCast (n : ℕ) (q : ℚ) : ((sinTaylor n q : ℚ) : ℝ) = sinTaylor n (q : ℝ) := by
  simp [sinTaylor]

/-- The even terms of the series of exp(i x) are the cosine's, its odd terms the sine's. -/
theorem expSeries_mul_I (n : ℕ) (x : ℝ) :
    ∑ m ∈ Finset.range (2 * n), ((x : ℂ) * Complex.I) ^ m / (m.factorial : ℂ) =
      ((cosTaylor n x : ℝ) : ℂ) + ((sinTaylor n x : ℝ) : ℂ) * Complex.I := by
  induction n with
  | zero => simp [cosTaylor, sinTaylor]
  | succ n ih =>
    have heven : ((x : ℂ) * Complex.I) ^ (2 * n) = (-1) ^ n * (x : ℂ) ^ (2 * n) := by
      rw [mul_pow, pow_mul Complex.I, Complex.I_sq, mul_comm]
    rw [mul_add_one, Finset.sum_range_succ, Finset.sum_range_succ, ih, pow_succ _ (2 * n), heven,
      cosTaylor, cosTaylor, sinTaylor, sinTaylor, Finset.sum_range_succ, Finset.sum_range_succ]
    push_cast
    ring

/-- The Taylor polynomial is near the sine up to 8/5, which is past pi/2. -/
theorem abs_sin_sub_sinTaylor_le (x : ℝ) (h0 : 0 ≤ x) (h1 : x ≤ 8 / 5) :
    |Real.sin x - sinTaylor 8 x| ≤ 1 / 10 ^ 9 := by
  have hnorm : ‖(x : ℂ) * Complex.I‖ = x := by
    rw [norm_mul, Complex.norm_I, mul_one, Complex.norm_of_nonneg h0]
  have hsmall : ‖(x : ℂ) * Complex.I‖ / (Nat.succ 16 : ℕ) ≤ 1 / 2 := by
    rw [hnorm]; norm_num; linarith
  have hexp := Complex.exp_bound' hsmall
  have him : Real.sin x - sinTaylor 8 x = (Complex.exp (x * Complex.I) -
      ∑ m ∈ Finset.range (2 * 8), ((x : ℂ) * Complex.I) ^ m / (m.factorial : ℂ)).im := by
    rw [expSeries_mul_I 8, Complex.sub_im, Complex.exp_ofReal_mul_I_im]
    simp
  calc |Real.sin x - sinTaylor 8 x| ≤ ‖(x : ℂ) * Complex.I‖ ^ 16 / (Nat.factorial 16 : ℝ) * 2 := by
        rw [him]; exact (Complex.abs_im_le_norm _).trans hexp
    _ ≤ (8 / 5) ^ 16 / (Nat.factorial 16 : ℝ) * 2 := by rw [hnorm]; gcongr
    _ ≤ 1 / 10 ^ 9 := by norm_num [Nat.factorial]

/-- A rational angle below (pi/2) * k/256, from fourteen decimals of pi. -/
def quarterAngle (k : ℕ) : ℚ := 3.14159265358979 * k / 512

theorem quarterAngle_le (k : ℕ) (hk : k ≤ 256) : (quarterAngle k : ℝ) ≤ 8 / 5 := by
  have hk' : (k : ℝ) ≤ 256 := by exact_mod_cast hk
  rw [quarterAngle]
  push_cast
  linarith

theorem quarterAngle_near (k : ℕ) (hk : k ≤ 256) :
    |Real.pi / 2 * ((k : ℝ) / 256) - quarterAngle k| ≤ 1 / 10 ^ 9 := by
  have hk' : (k : ℝ) ≤ 256 := by exact_mod_cast hk
  have hlo := Real.pi_gt_d20
  have hhi := Real.pi_lt_d20
  have hdiff : Real.pi / 2 * ((k : ℝ) / 256) - quarterAngle k =
      (Real.pi - 3.14159265358979) * (k / 512) := by
    rw [quarterAngle]; push_cast; ring
  rw [hdiff, abs_mul, abs_of_nonneg (by linarith), abs_of_nonneg (by positivity)]
  calc (Real.pi - 3.14159265358979) * (k / 512) ≤ 1 / 10 ^ 9 * 1 := by
        gcongr
        · linarith
        · linarith
    _ = 1 / 10 ^ 9 := mul_one _

/-- Every entry of SINQ is the polynomial's value rounded, and no value is nearer to a rounding tie than 1/1000. -/
theorem sinq_near_sinTaylor :
    ∀ k < 257, |32767 * sinTaylor 8 (quarterAngle k) - (sinq k : ℚ)| ≤ 1 / 2 - 1 / 1000 := by
  decide +kernel

theorem sinTaylor_near_sin (k : ℕ) (hk : k ≤ 256) :
    |Real.sin (Real.pi / 2 * ((k : ℝ) / 256)) - (sinTaylor 8 (quarterAngle k) : ℚ)| ≤ 2 / 10 ^ 9 := by
  have hpos : (0 : ℝ) ≤ quarterAngle k := by rw [quarterAngle]; positivity
  rw [sinTaylor_ratCast]
  calc |Real.sin (Real.pi / 2 * ((k : ℝ) / 256)) - sinTaylor 8 (quarterAngle k : ℝ)|
      ≤ |Real.sin (Real.pi / 2 * ((k : ℝ) / 256)) - Real.sin (quarterAngle k)| +
        |Real.sin (quarterAngle k) - sinTaylor 8 (quarterAngle k : ℝ)| := abs_sub_le _ _ _
    _ ≤ 1 / 10 ^ 9 + 1 / 10 ^ 9 :=
        add_le_add ((Real.abs_sin_sub_sin_le _ _).trans (quarterAngle_near k hk))
          (abs_sin_sub_sinTaylor_le _ hpos (quarterAngle_le k hk))
    _ = 2 / 10 ^ 9 := by norm_num

/-- Every entry of SINQ is strictly nearer than one half to the scaled sine. -/
theorem sinq_near_sin (k : ℕ) (hk : k ≤ 256) :
    |32767 * Real.sin (Real.pi / 2 * ((k : ℝ) / 256)) - (sinq k : ℝ)| < 1 / 2 := by
  have htable : |32767 * ((sinTaylor 8 (quarterAngle k) : ℚ) : ℝ) - (sinq k : ℝ)| ≤ 1 / 2 - 1 / 1000 := by
    have hrat := sinq_near_sinTaylor k (by omega)
    rify at hrat
    exact hrat
  have hsin := sinTaylor_near_sin k hk
  rw [abs_le] at htable hsin
  rw [abs_lt]
  constructor <;> linarith

/-- Settles O27: an entry nearer than one half to the scaled sine is the sine rounded. -/
theorem sinqIsTheRoundedSine : Obligations.SinqIsTheRoundedSine := by
  unfold Obligations.SinqIsTheRoundedSine
  intro k hk
  obtain ⟨hlo, hhi⟩ := abs_lt.mp (sinq_near_sin k hk)
  symm
  rw [Int.floor_eq_iff]
  push_cast
  constructor <;> linarith

end Sys2Proof.Machine
end

section
/-! The memory and transport rules of 20_memory.md: little-endian words (R51), words that wait on a port and the step
that accepts them (R55, R56, R60), open interleaving (R57, R61), idempotent commands (R53), and what a frame's sample
reads (R58). -/

namespace Sys2Proof.Machine

open Sys2Proof

/-! ## Bytes (R51) -/

theorem wordBytes_eq (w : Word) :
    wordBytes w = [w.extractLsb' 0 8, w.extractLsb' 8 8, w.extractLsb' 16 8, w.extractLsb' 24 8] := rfl

/-- A word is the number its bytes spell in base 256, byte 0 the least significant. -/
theorem toNat_eq_sum_bytes (w : Word) :
    w.toNat = (w.extractLsb' 0 8).toNat + 256 * (w.extractLsb' 8 8).toNat +
      65536 * (w.extractLsb' 16 8).toNat + 16777216 * (w.extractLsb' 24 8).toNat := by
  have hw := w.isLt
  simp only [BitVec.extractLsb'_toNat, Nat.shiftRight_eq_div_pow, Nat.reducePow] at hw ⊢
  omega

/-- Two adjacent bytes of a word are one of its halfwords, the higher byte on the left. -/
theorem extractLsb'_halfword (w : Word) (lo : Nat) :
    w.extractLsb' lo 16 = w.extractLsb' (lo + 8) 8 ++ w.extractLsb' lo 8 :=
  (BitVec.extractLsb'_append_extractLsb'_eq_extractLsb' (len₁ := 8) (len₂ := 8) rfl).symm

/-- Settles O6: the four byte fields spell the word and its halves, and the stream decoder takes them whole. -/
theorem littleEndianSerialization : Obligations.LittleEndianSerialization := by
  unfold Obligations.LittleEndianSerialization
  exact ⟨fun w => ⟨_, _, _, _, wordBytes_eq w, toNat_eq_sum_bytes w, bytesWord_wordBytes w⟩,
    fun w => ⟨_, _, _, _, wordBytes_eq w, extractLsb'_halfword w 0, extractLsb'_halfword w 16⟩,
    decodeBytes_wordBytes⟩

/-! ## Words that wait, and the step that accepts them (R55, R60) -/

/-- The state once HOST has offered a word: only the words waiting on its port grow. -/
theorem State.offerWord_eq (s : State) (p : Port) (w : Word) :
    s.offerWord p w = { s with
      engIn := if p = .engine then s.engIn ++ [w] else s.engIn
      ctlIn := if p = .control then s.ctlIn ++ [w] else s.ctlIn } := by
  cases p <;> rfl

/-- Settles O16: the turn of an offer is the offer alone. -/
theorem offeredWordsOnlyWait : Obligations.OfferedWordsOnlyWait := by
  unfold Obligations.OfferedWordsOnlyWait
  intro s p w hturn
  have hoffer : step s = .next (s.takeTurn.offerWord p w) := step_of_nextTurn s _ hturn
  rw [hoffer, State.offerWord_eq, State.takeTurn_engIn, State.takeTurn_ctlIn]

/-- With REM = 0, ENG's turn is the acceptance of the word offered first (R121). -/
theorem engTurn_of_waiting (s : State) (w : Word) (rest : List Word) (hrem : s.rem = 0#24)
    (hin : s.engIn = w :: rest) : engTurn s = acceptWord .engine w (s.setEngIn rest) := by
  rw [engTurn, if_pos hrem, hin]

/-- CTL's turn is the acceptance of the word offered first (R128). -/
theorem ctlTurn_of_waiting (s : State) (w : Word) (rest : List Word) (hin : s.ctlIn = w :: rest) :
    ctlTurn s = acceptWord .control w (s.setCtlIn rest) := by
  rw [ctlTurn, hin]

theorem acceptWord_of_command (p : Port) (w : Word) (i : Instr) (s : State)
    (hdec : decode p w = .command i) : acceptWord p w s = exec i s := by
  rw [acceptWord, hdec]

/-- Settles O10: the turn is the acceptance of the waiting word, or the read, and that is the instruction's meaning. -/
theorem stepRunsTheDecodedInstruction : Obligations.StepRunsTheDecodedInstruction := by
  unfold Obligations.StepRunsTheDecodedInstruction
  refine ⟨fun s w rest i hturn hrem hin hdec => ?_, fun s w rest i hturn hin hdec => ?_,
    fun s a hturn => step_of_nextTurn s _ hturn⟩
  · calc step s = engTurn s.takeTurn := step_of_nextTurn s _ hturn
      _ = acceptWord .engine w (s.takeTurn.setEngIn rest) :=
        engTurn_of_waiting _ w rest (by simpa using hrem) (by simpa using hin)
      _ = exec i (s.takeTurn.setEngIn rest) := acceptWord_of_command _ _ _ _ hdec
  · calc step s = ctlTurn s.takeTurn := step_of_nextTurn s _ hturn
      _ = acceptWord .control w (s.takeTurn.setCtlIn rest) :=
        ctlTurn_of_waiting _ w rest (by simpa using hin)
      _ = exec i (s.takeTurn.setCtlIn rest) := acceptWord_of_command _ _ _ _ hdec

/-! ## Interleaving (R57, R61) -/

/-- Settles O12, by induction on the turns taken: the script's head is the next turn, and no turn reads the script. -/
theorem everyInterleavingIsAdmitted : Obligations.EveryInterleavingIsAdmitted := by
  unfold Obligations.EveryInterleavingIsAdmitted
  intro ts s t hrun
  induction hrun with
  | nil s => rfl
  | cons τ ts s u t hturn _ ih =>
    have hstep : step { s with sched := τ :: ts } = .next { u with sched := ts } :=
      (step_of_sched _ τ ts rfl).trans (runTurn_sched τ s u ts hturn)
    rw [List.length_cons, run_succ_of_step _ _ _ hstep, ih]

/-! ## Idempotent commands (R53) -/

theorem exec_cfg_eq (rate : Nat) (s : State) :
    exec (.cfg rate) s = .next (s.configured (BitVec.ofNat 24 rate)) := execCfg_eq rate s

theorem exec_voice_of_le (idx : Nat) (on : Bool) (s : State) (hidx : idx ≤ 16) :
    exec (.voice idx on) s = .next (s.setAct (setBit s.act idx on)) := if_pos hidx

/-- Settles O25: each command writes a value that does not depend on what it overwrites; VOICE's depends on the
other bits of ACT alone. -/
theorem repeatedCommandsChangeNothing : Obligations.RepeatedCommandsChangeNothing := by
  unfold Obligations.RepeatedCommandsChangeNothing
  intro i s t hrender hread h
  rcases exec_cases i s t h with ⟨-, rfl⟩ | ⟨rate, rfl, rfl⟩ | ⟨n, rfl, -⟩ | ⟨idx, on, rfl, hidx, rfl⟩ |
    ⟨idx, on, -, -, rfl⟩ | ⟨gv, rfl, rfl⟩ | ⟨rfl, rfl⟩ | ⟨a, rfl, -⟩
  · exact h
  · exact exec_cfg_eq rate _
  · exact absurd rfl (hrender n)
  · rw [exec_voice_of_le idx on _ hidx, State.setAct_act, setBit_setBit]
    rfl
  · exact h
  · rfl
  · rfl
  · exact absurd rfl (hread a)

/-! ## What a frame's sample reads (R58, R130) -/

theorem activeTotal_congr (s u : State) (hact : s.act = u.act)
    (hph : ∀ i : Voice, s.act.getLsbD i.val = true → s.ph[i] = u.ph[i]) :
    s.activeTotal = u.activeTotal := by
  have hvoices : s.activeVoices = u.activeVoices := by rw [State.activeVoices, hact, State.activeVoices]
  rw [State.activeTotal, State.activeTotal, ← hvoices]
  refine Finset.sum_congr rfl fun i hi => ?_
  rw [hph i (Finset.mem_filter.mp hi).2]

/-- Settles O39: both frames are silent, or both scale the same total by the same gain and voice count. -/
theorem silentVoicesCannotReachTheFrame : Obligations.SilentVoicesCannotReachTheFrame := by
  unfold Obligations.SilentVoicesCannotReachTheFrame
  intro s u hsr hact hgain hph
  by_cases hsilent : s.sr = 0#24 ∨ s.act = 0#17
  · rw [mixFrame_silent s hsilent, mixFrame_silent u (by rwa [← hsr, ← hact])]
  · obtain ⟨hrate, hvoiced⟩ := not_or.mp hsilent
    rw [mixFrame_sounding s hrate hvoiced, mixFrame_sounding u (by rwa [Ne, ← hsr]) (hact ▸ hvoiced)]
    change scaleMix _ _ (popcount s.act) = scaleMix _ _ (popcount u.act)
    rw [activeTotal_congr s u hact hph, hgain, hact]

/-! ## The engine port during a render (R56, R121) -/

@[simp] theorem frameStep_engIn (s : State) : (frameStep s).engIn = s.engIn := by rw [frameStep_eq]
@[simp] theorem frameStep_rem (s : State) : (frameStep s).rem = s.rem - 1#24 := by rw [frameStep_eq]
@[simp] theorem frameStep_delivered (s : State) :
    (frameStep s).delivered = s.delivered ++ [frameWord (mixFrame s).1] := by
  simp [State.delivered]

theorem State.delivered_of_stored_eq {s t : State} (h : t.stored = s.stored) :
    t.delivered = s.delivered := by
  change t.stored.delivered = s.stored.delivered
  rw [h]

/-- ENG takes no word from its port while a render is in progress. -/
theorem engTurn_keeps_engIn_during_render (s t : State) (hrem : s.rem ≠ 0#24) (h : engTurn s = .next t) :
    t.engIn = s.engIn := by
  rcases engTurn_cases s t h with ⟨hzero, -⟩ | ⟨w, rest, hzero, -⟩ | ⟨-, -, rfl⟩ | ⟨-, -, rfl⟩
  · exact absurd hzero hrem
  · exact absurd hzero hrem
  · exact frameStep_engIn s
  · rfl

theorem ctlTurn_keeps_engIn (s t : State) (h : ctlTurn s = .next t) : t.engIn = s.engIn := by
  rcases ctlTurn_cases s t h with ⟨-, rfl⟩ | ⟨w, rest, -, haccept⟩
  · rfl
  · exact (acceptWord_keeps_waiting _ _ _ _ haccept).1

/-- During a render, the words waiting on the engine port only gain the words HOST offers (R56). -/
theorem step_extends_engIn_during_render (s t : State) (h : step s = .next t) (hrem : s.rem ≠ 0#24)
    (hreset : s.nextTurn.isReset = false) : ∃ more, t.engIn = s.engIn ++ more := by
  rcases step_cases s t h with ⟨-, heng⟩ | ⟨-, hctl⟩ | ⟨a, -, rfl⟩ | ⟨-, rfl⟩ | ⟨p, w, -, rfl⟩ |
    ⟨e, c, hturn, -⟩
  · exact ⟨[], by simpa using engTurn_keeps_engIn_during_render _ _ (by simpa using hrem) heng⟩
  · exact ⟨[], by simpa using ctlTurn_keeps_engIn _ _ hctl⟩
  · exact ⟨[], by simp⟩
  · exact ⟨[], by simp⟩
  · cases p with
    | engine => exact ⟨[w], by simp⟩
    | control => exact ⟨[], by simp⟩
  · rw [hturn] at hreset; cases hreset

/-- From `s` to `t` the delivered frames grow by exactly the frames REM falls by. -/
def FramesAccounted (s t : State) : Prop :=
  ∃ fs : List Word, t.delivered = s.delivered ++ fs ∧ fs.length + t.rem.toNat = s.rem.toNat

theorem framesAccounted_of_eq {s t : State} (hdel : t.delivered = s.delivered) (hrem : t.rem = s.rem) :
    FramesAccounted s t :=
  ⟨[], by simpa using hdel, by simp [hrem]⟩

theorem framesAccounted_frameStep (s : State) (hrem : s.rem ≠ 0#24) : FramesAccounted s (frameStep s) := by
  refine ⟨_, frameStep_delivered s, ?_⟩
  rw [frameStep_rem, List.length_singleton]
  bv_omega

/-- Of the bank's writers but reset, only the frame step appends frames and only RENDER raises REM. -/
theorem bankStep_accounts_frames (s u : State) (hstep : BankStep s u)
    (hreset : s.nextTurn.isReset = false) (hnorender : s.rem ≠ 0#24 ∨ s.engIn = []) :
    FramesAccounted s u := by
  cases hstep with
  | frame _ hrem => exact framesAccounted_frameStep s hrem
  | render w rest n _ hrem hin => simp [hrem, hin] at hnorender
  | reset e c hturn => rw [hturn] at hreset; cases hreset
  | pop => exact framesAccounted_of_eq s.popFrame_delivered s.popFrame_rem
  | quiet | cfg | voice | gain | relall => exact framesAccounted_of_eq rfl rfl

/-- A step that is no reset and accepts no engine word accounts for its frames (R56, R121). -/
theorem step_accounts_frames (s t : State) (h : step s = .next t) (hreset : s.nextTurn.isReset = false)
    (hnorender : s.rem ≠ 0#24 ∨ s.engIn = []) : FramesAccounted s t := by
  obtain ⟨u, hstep, hstored⟩ := bankStep_of_step s t h
  obtain ⟨-, -, -, -, -, hrem, -⟩ := State.elements_of_stored_eq hstored
  rw [FramesAccounted, State.delivered_of_stored_eq hstored, hrem]
  exact bankStep_accounts_frames s u hstep hreset hnorender

/-- Outside reset, SR and FTW are held while a render is in progress (R24, R25, R121). -/
theorem step_keeps_rate_during_render (s t : State) (h : step s = .next t) (hrem : s.rem ≠ 0#24)
    (hreset : s.nextTurn.isReset = false) : t.sr = s.sr ∧ t.ftw = s.ftw := by
  by_contra hchange
  rcases onlyCfgWritesRateAndTuning s t h (not_and_or.mp hchange) with hstruck | ⟨-, hzero, -⟩
  · simp [hreset] at hstruck
  · exact hrem hzero

/-- Settles O42: the rate, the engine port and the frames' account, each by its own lemma. -/
theorem renderHoldsTheEnginePort : Obligations.RenderHoldsTheEnginePort := by
  unfold Obligations.RenderHoldsTheEnginePort
  intro s t h hrem hreset
  obtain ⟨hsr, hftw⟩ := step_keeps_rate_during_render s t h hrem hreset
  exact ⟨hsr, hftw, step_extends_engIn_during_render s t h hrem hreset,
    step_accounts_frames s t h hreset (.inl hrem)⟩

end Sys2Proof.Machine
end

section
/-! Decoding and encoding (30_encoding.md R71 to R77; 42_readback.md R150): each is the other's inverse but for the
ignored bits, and a word no port runs changes nothing. -/

namespace Sys2Proof.Machine

open Sys2Proof

/-! ## The fields of a command word (R71) -/

theorem arg_lt (w : Word) : arg w < 16777216 := by
  rw [arg_eq]
  omega

theorem voiceIdx_commandWord (op a : Nat) (ho : op < 256) (ha : a < 16777216) :
    voiceIdx (commandWord op a) = a % 256 := by
  rw [voiceIdx_eq, commandWord_toNat op a ho ha]
  omega

theorem voiceOn_commandWord (op a : Nat) (ho : op < 256) (ha : a < 16777216) :
    voiceOn (commandWord op a) = decide (a / 256 % 2 = 1) := by
  rw [voiceOn_eq, commandWord_toNat op a ho ha]
  congr 2
  omega

/-- VOICE's two fields together are the low 9 bits of the word. -/
theorem voice_operand_eq (w : Word) : (if voiceOn w then 256 else 0) + voiceIdx w = w.toNat % 512 := by
  rw [voiceOn_eq, voiceIdx_eq]
  simp only [decide_eq_true_eq]
  split_ifs <;> omega

theorem commandWord_eq_append (op a : Nat) (ha : a < 16777216) :
    commandWord op a = BitVec.ofNat 8 op ++ BitVec.ofNat 24 a := by
  apply BitVec.eq_of_toNat_eq
  rw [commandWord, BitVec.toNat_append, BitVec.toNat_ofNat, BitVec.toNat_ofNat, BitVec.toNat_ofNat,
    ← Nat.shiftLeft_add_eq_or_of_lt (Nat.mod_lt a (by norm_num)), Nat.shiftLeft_eq]
  omega

/-- A mask that keeps OP and the low `k` bits of a command word zeroes the rest of its operand. -/
theorem commandWord_and_mask (op a k : Nat) (ha : a < 16777216) (hk : k ≤ 24) :
    commandWord op a &&& commandWord 0xFF (2 ^ k - 1) = commandWord op (a % 2 ^ k) := by
  have hmask : 2 ^ k ≤ 16777216 := Nat.pow_le_pow_right (n := 2) (by norm_num) hk
  have hlow : BitVec.ofNat 24 a &&& BitVec.ofNat 24 (2 ^ k - 1) = BitVec.ofNat 24 (a % 2 ^ k) := by
    rw [← BitVec.ofNat_and, Nat.and_two_pow_sub_one_eq_mod]
  have hop : BitVec.ofNat 8 op &&& BitVec.ofNat 8 0xFF = BitVec.ofNat 8 op := BitVec.and_allOnes
  rw [commandWord_eq_append op a ha, commandWord_eq_append 0xFF _ (by have := Nat.two_pow_pos k; omega),
    commandWord_eq_append op _ ((Nat.mod_le a _).trans_lt ha), BitVec.and_append, hop, hlow]

/-- The operand of GAIN is the word's low 24 bits in two's complement (R72). -/
theorem sext24_arg (w : Word) : sext24 (arg w) = (w.setWidth 24).toInt := by
  rw [arg_eq, sext24, BitVec.toInt_eq_toNat_cond, BitVec.toNat_setWidth]
  split_ifs <;> omega

/-! ## Decoding an encoded instruction -/

theorem decodeCommand_of_encode (i : Instr) (w : Word) (hwf : i.wf = true) (henc : encode i = .word w) :
    decodeCommand w = some i := by
  cases i with
  | nop => cases henc; rfl
  | cfg rate =>
    cases henc
    have hrate : rate < 16777216 := by simpa [Instr.wf] using hwf
    rw [decodeCommand_cfg _ (opcode_commandWord 0x01 rate (by omega) hrate),
      arg_commandWord 0x01 rate (by omega) hrate]
  | render count =>
    cases henc
    have hcount : count < 16777216 := by simpa [Instr.wf] using hwf
    rw [decodeCommand_render _ (opcode_commandWord 0x02 count (by omega) hcount),
      arg_commandWord 0x02 count (by omega) hcount]
  | voice idx on =>
    cases henc
    have hidx : idx < 256 := by simpa [Instr.wf] using hwf
    have hoperand : (if on then 256 else 0) + idx < 16777216 := by split_ifs <;> omega
    rw [decodeCommand_voice _ (opcode_commandWord 0x10 _ (by omega) hoperand),
      voiceIdx_commandWord 0x10 _ (by omega) hoperand, voiceOn_commandWord 0x10 _ (by omega) hoperand]
    cases on <;> simp <;> omega
  | gain gv =>
    cases henc
    obtain ⟨hlo, hhi⟩ : -8388608 ≤ gv ∧ gv ≤ 8388607 := by simpa [Instr.wf] using hwf
    rw [decodeCommand_gain _ (opcode_commandWord 0x11 _ (by omega) (trunc24_lt gv)),
      arg_commandWord 0x11 _ (by omega) (trunc24_lt gv), sext24_trunc24 gv hlo hhi]
  | relall => cases henc; rfl
  | rd addr => cases henc

theorem decode_of_encode (p : Port) (i : Instr) (w : Word) (hwf : i.wf = true) (henc : encode i = .word w)
    (hacc : accepts p i = true) : decode p w = .command i :=
  (decode_eq_command p w i).mpr ⟨decodeCommand_of_encode i w hwf henc, hacc⟩

theorem decodeRead_ofNat (addr : Nat) (haddr : addr < 256) :
    decodeRead (BitVec.ofNat 8 addr) = .rd addr := by
  rw [decodeRead, BitVec.toNat_ofNat, Nat.mod_eq_of_lt haddr]

/-- Settles O4: RD is a request for its address; any other instruction has a word, its own port, and the word decodes
to it. -/
theorem decodeOfEncodeIsIdentity : Obligations.DecodeOfEncodeIsIdentity := by
  unfold Obligations.DecodeOfEncodeIsIdentity
  intro i hwf
  cases i with
  | rd addr => exact .inr ⟨_, rfl, decodeRead_ofNat addr (by simpa [Instr.wf] using hwf)⟩
  | nop | cfg | render =>
    exact .inl ⟨_, rfl, ⟨.engine, rfl⟩, fun p => decode_of_encode p _ _ hwf rfl⟩
  | voice | gain | relall =>
    exact .inl ⟨_, rfl, ⟨.control, rfl⟩, fun p => decode_of_encode p _ _ hwf rfl⟩

/-! ## What each word decodes to (R73, R74) -/

/-- A command that one port accepts and the other does not (R76). -/
theorem decode_on_one_port (p q : Port) (w : Word) (i : Instr) (h : decodeCommand w = some i)
    (hp : accepts p i = true) (hq : accepts q i = false) :
    decode p w = .command i ∧ decode q w = .ignored .wrongPort := by
  rw [decode_of_some p w i h, decode_of_some q w i h, hp, hq]
  exact ⟨rfl, rfl⟩

/-- Settles O2: the opcode gives the instruction, and the instruction its port. -/
theorem opcodeMapAndOperands : Obligations.OpcodeMapAndOperands := by
  unfold Obligations.OpcodeMapAndOperands
  intro w
  simp only [← opcode_eq, ← arg_eq, ← voiceIdx_eq, ← sext24_arg]
  exact ⟨fun h p => (decode_eq_command p w _).mpr ⟨decodeCommand_nop w h, by cases p <;> rfl⟩,
    fun h => decode_on_one_port .engine .control w _ (decodeCommand_cfg w h) rfl rfl,
    fun h => decode_on_one_port .engine .control w _ (decodeCommand_render w h) rfl rfl,
    fun h => decode_on_one_port .control .engine w _ (decodeCommand_voice w h) rfl rfl,
    fun h => decode_on_one_port .control .engine w _ (decodeCommand_gain w h) rfl rfl,
    fun h => decode_on_one_port .control .engine w _ (decodeCommand_relall w h) rfl rfl,
    fun h0 h1 h2 h3 h4 h5 p => decode_of_none p w (decodeCommand_reserved w h0 h1 h2 h3 h4 h5)⟩

/-- Settles O1: each word's fields, read off. -/
theorem specWordsDecodeAsListed : Obligations.SpecWordsDecodeAsListed := by
  unfold Obligations.SpecWordsDecodeAsListed
  decide

/-! ## Which bits of a word matter (R77) -/

/-- A command is decoded from words of its own opcode only. -/
theorem op_of_decodeCommand (w : Word) (i : Instr) (h : decodeCommand w = some i) :
    Laws.OpField.op i = some (opcode w) := by
  rcases decodeCommand_cases w i h with ⟨hop, rfl⟩ | ⟨hop, rfl⟩ | ⟨hop, rfl⟩ | ⟨hop, rfl⟩ | ⟨hop, rfl⟩ |
    ⟨hop, rfl⟩ <;> rw [hop] <;> rfl

theorem opcode_eq_of_decodeCommand (w v : Word) (i : Instr) (hw : decodeCommand w = some i)
    (hv : decodeCommand v = some i) : opcode w = opcode v :=
  Option.some.inj ((op_of_decodeCommand w i hw).symm.trans (op_of_decodeCommand v i hv))

theorem sext24_arg_inj (w v : Word) (h : sext24 (arg w) = sext24 (arg v)) : arg w = arg v := by
  rw [← trunc24_sext24 _ (arg_lt w), h, trunc24_sext24 _ (arg_lt v)]

/-- CFG, RENDER and GAIN have no ignored bit: the command determines the word. -/
theorem word_eq_of_decodeCommand (w v : Word) (i : Instr)
    (hop : opcode w = 0x01 ∨ opcode w = 0x02 ∨ opcode w = 0x11) (hw : decodeCommand w = some i)
    (hv : decodeCommand v = some i) : w = v := by
  have hsame := opcode_eq_of_decodeCommand w v i hw hv
  suffices harg : arg w = arg v by
    rw [← commandWord_opcode_arg w, ← commandWord_opcode_arg v, hsame, harg]
  have hdec : decodeCommand w = decodeCommand v := hw.trans hv.symm
  rcases hop with h | h | h
  · rw [decodeCommand_cfg w h, decodeCommand_cfg v (hsame ▸ h)] at hdec
    simpa using hdec
  · rw [decodeCommand_render w h, decodeCommand_render v (hsame ▸ h)] at hdec
    simpa using hdec
  · rw [decodeCommand_gain w h, decodeCommand_gain v (hsame ▸ h)] at hdec
    exact sext24_arg_inj w v (by simpa using hdec)

/-- The same, from what a port that accepts the command makes of both words. -/
theorem word_eq_of_decode (p : Port) (w v : Word) (i : Instr)
    (hop : opcode w = 0x01 ∨ opcode w = 0x02 ∨ opcode w = 0x11) (hw : decodeCommand w = some i)
    (hacc : accepts p i = true) (hdec : decode p w = decode p v) : w = v := by
  have hv : decode p v = .command i := hdec ▸ (decode_eq_command p w i).mpr ⟨hw, hacc⟩
  exact word_eq_of_decodeCommand w v i hop hw ((decode_eq_command p v i).mp hv).1

theorem decode_congr (p : Port) (w v : Word) (h : decodeCommand w = decodeCommand v) :
    decode p w = decode p v := by
  rw [decode, decode, h]

/-- The low 9 bits of two words determine their VOICE fields. -/
theorem voice_fields_congr (w v : Word) (h : w.extractLsb' 0 9 = v.extractLsb' 0 9) :
    voiceIdx w = voiceIdx v ∧ voiceOn w = voiceOn v := by
  have hlow := congrArg BitVec.toNat h
  simp only [BitVec.extractLsb'_toNat, Nat.shiftRight_zero, Nat.reducePow] at hlow
  rw [voiceIdx_eq, voiceIdx_eq, voiceOn_eq, voiceOn_eq, decide_eq_decide]
  omega

/-- Settles O3: what decoding reads of NOP, RELALL and VOICE words is equal, and the other three commands determine
their word. -/
theorem ignoredOperandBitsNeverMatter : Obligations.IgnoredOperandBitsNeverMatter := by
  unfold Obligations.IgnoredOperandBitsNeverMatter
  refine ⟨fun p w v hsame hop => decode_congr p w v ?_, fun p w v hw hv hlow => decode_congr p w v ?_,
    fun w v hop hdec => ?_,
    fun w v hop hdec =>
      word_eq_of_decode .control w v _ (.inr (.inr hop)) (decodeCommand_gain w hop) rfl hdec⟩
  · rcases hop with h | h
    · rw [decodeCommand_nop w h, decodeCommand_nop v (hsame ▸ h)]
    · rw [decodeCommand_relall w h, decodeCommand_relall v (hsame ▸ h)]
  · obtain ⟨hidx, hon⟩ := voice_fields_congr w v hlow
    rw [decodeCommand_voice w hw, decodeCommand_voice v hv, hidx, hon]
  · rcases hop with h | h
    · exact word_eq_of_decode .engine w v _ (.inl h) (decodeCommand_cfg w h) rfl hdec
    · exact word_eq_of_decode .engine w v _ (.inr (.inl h)) (decodeCommand_render w h) rfl hdec

/-! ## Encoding a decoded command -/

theorem wf_of_decodeCommand (w : Word) (i : Instr) (h : decodeCommand w = some i) : i.wf = true := by
  rcases decodeCommand_cases w i h with ⟨-, rfl⟩ | ⟨-, rfl⟩ | ⟨-, rfl⟩ | ⟨-, rfl⟩ | ⟨-, rfl⟩ | ⟨-, rfl⟩
  · rfl
  · simpa [Instr.wf] using arg_lt w
  · simpa [Instr.wf] using arg_lt w
  · simp only [Instr.wf, voiceIdx_eq, decide_eq_true_eq]
    omega
  · simpa [Instr.wf] using sext24_range _ (arg_lt w)
  · rfl

theorem encode_of_accepts (p : Port) (i : Instr) (h : accepts p i = true) : ∃ w, encode i = .word w := by
  cases i with
  | rd addr => cases p <;> cases h
  | nop | cfg | render | voice | gain | relall => exact ⟨_, rfl⟩

/-- A word with the operand bits from `k` up zeroed. -/
theorem word_and_mask (w : Word) (k : Nat) (hk : k ≤ 24) :
    w &&& commandWord 0xFF (2 ^ k - 1) = commandWord (opcode w) (w.toNat % 2 ^ k) := by
  have hlow : arg w % 2 ^ k = w.toNat % 2 ^ k := by
    rw [arg_eq]
    exact Nat.mod_mod_of_dvd _ (Nat.pow_dvd_pow 2 hk)
  rw [← hlow, ← commandWord_and_mask _ _ k (arg_lt w) hk, commandWord_opcode_arg]

/-- A VOICE word is re-encoded with its bits [23:9] zeroed (R77). -/
theorem encode_voice_fields (w : Word) (h : opcode w = 0x10) :
    encode (.voice (voiceIdx w) (voiceOn w)) = .word (w &&& 0xFF0001FF#32) := by
  have hmask : w &&& 0xFF0001FF#32 = commandWord (opcode w) (w.toNat % 512) :=
    word_and_mask w 9 (by omega)
  rw [hmask, h, encode, voice_operand_eq]

/-- The word of an opcode with no operand (R77: NOP and RELALL). -/
theorem commandWord_opcode_zero (w : Word) : commandWord (opcode w) 0 = w &&& 0xFF000000#32 := by
  have hmask : w &&& 0xFF000000#32 = commandWord (opcode w) (w.toNat % 1) := word_and_mask w 0 (by omega)
  rw [hmask, Nat.mod_one]

/-- Settles O5: the encoding decodes to the same command, so it has the same opcode, and the same word where no bit is
ignored; the other encodings are the masked word. -/
theorem encodeOfDecodeKeepsTheWord : Obligations.EncodeOfDecodeKeepsTheWord := by
  unfold Obligations.EncodeOfDecodeKeepsTheWord
  intro p w i hdec
  obtain ⟨hw, hacc⟩ := (decode_eq_command p w i).mp hdec
  have hwf := wf_of_decodeCommand w i hw
  obtain ⟨w', henc⟩ := encode_of_accepts p i hacc
  have hw' := decodeCommand_of_encode i w' hwf henc
  refine ⟨hwf, w', henc, decode_of_encode p i w' hwf henc hacc, opcode_eq_of_decodeCommand w' w i hw' hw,
    fun hop => (word_eq_of_decodeCommand w w' i hop hw hw').symm, fun hop => ?_, fun hop => ?_⟩
  · cases hw.symm.trans (decodeCommand_voice w hop)
    exact Encoded.word.inj (henc.symm.trans (encode_voice_fields w hop))
  · rw [← commandWord_opcode_zero w]
    rcases hop with h | h
    · cases hw.symm.trans (decodeCommand_nop w h)
      rw [h]; exact (Encoded.word.inj henc).symm
    · cases hw.symm.trans (decodeCommand_relall w h)
      rw [h]; exact (Encoded.word.inj henc).symm

/-! ## Words a port ignores (R75, R76) -/

theorem opcode_of_decode_engine (w : Word) (i : Instr) (h : decode .engine w = .command i) :
    opcode w = 0x00 ∨ opcode w = 0x01 ∨ opcode w = 0x02 := by
  obtain ⟨hw, hacc⟩ := (decode_eq_command .engine w i).mp h
  rcases decodeCommand_cases w i hw with ⟨hop, -⟩ | ⟨hop, -⟩ | ⟨hop, -⟩ | ⟨-, rfl⟩ | ⟨-, rfl⟩ | ⟨-, rfl⟩
  · exact .inl hop
  · exact .inr (.inl hop)
  · exact .inr (.inr hop)
  all_goals cases hacc

theorem opcode_of_decode_control (w : Word) (i : Instr) (h : decode .control w = .command i) :
    opcode w = 0x00 ∨ opcode w = 0x10 ∨ opcode w = 0x11 ∨ opcode w = 0x12 := by
  obtain ⟨hw, hacc⟩ := (decode_eq_command .control w i).mp h
  rcases decodeCommand_cases w i hw with ⟨hop, -⟩ | ⟨-, rfl⟩ | ⟨-, rfl⟩ | ⟨hop, -⟩ | ⟨hop, -⟩ | ⟨hop, -⟩
  · exact .inl hop
  · cases hacc
  · cases hacc
  · exact .inr (.inl hop)
  · exact .inr (.inr (.inl hop))
  · exact .inr (.inr (.inr hop))

/-- A word that is no command of its port is accepted without effect. -/
theorem acceptWord_of_no_command (p : Port) (w : Word) (s : State) (h : ∀ i, decode p w ≠ .command i) :
    acceptWord p w s = .next s := by
  rw [acceptWord]
  cases hdec : decode p w with
  | command i => exact absurd hdec (h i)
  | ignored why => rfl

/-- ENG's turn during a render answers, and leaves the engine port's words waiting (R121). -/
theorem engTurn_waits_during_render (s : State) (hrem : s.rem ≠ 0#24) :
    ∃ t, engTurn s = .next t ∧ t.engIn = s.engIn := by
  obtain ⟨t, ht⟩ := runTurn_total .eng s
  exact ⟨t, ht, engTurn_keeps_engIn_during_render s t hrem ht⟩

/-- Settles O15: such a word is no command of its port, so its acceptance changes nothing; during a render ENG accepts
none. -/
theorem ignoredWordsChangeNothing : Obligations.IgnoredWordsChangeNothing := by
  unfold Obligations.IgnoredWordsChangeNothing
  refine ⟨fun s w rest hturn hin h0 h1 h2 => ⟨fun hrem => ?_, fun hrem => ?_⟩,
    fun s w rest hturn hin h0 h1 h2 h3 => ?_⟩
  · have hnone : ∀ i, decode .engine w ≠ .command i := fun i hdec => by
      rcases opcode_of_decode_engine w i hdec with h | h | h <;> contradiction
    calc step s = engTurn s.takeTurn := step_of_nextTurn s _ hturn
      _ = acceptWord .engine w (s.takeTurn.setEngIn rest) :=
        engTurn_of_waiting _ w rest (by simpa using hrem) (by simpa using hin)
      _ = .next (s.takeTurn.setEngIn rest) := acceptWord_of_no_command _ _ _ hnone
  · obtain ⟨t, ht, hwaits⟩ := engTurn_waits_during_render s.takeTurn (by simpa using hrem)
    exact ⟨t, (step_of_nextTurn s _ hturn).trans ht, by rw [hwaits, State.takeTurn_engIn, hin]⟩
  · have hnone : ∀ i, decode .control w ≠ .command i := fun i hdec => by
      rcases opcode_of_decode_control w i hdec with h | h | h | h <;> contradiction
    calc step s = ctlTurn s.takeTurn := step_of_nextTurn s _ hturn
      _ = acceptWord .control w (s.takeTurn.setCtlIn rest) :=
        ctlTurn_of_waiting _ w rest (by simpa using hin)
      _ = .next (s.takeTurn.setCtlIn rest) := acceptWord_of_no_command _ _ _ hnone

end Sys2Proof.Machine
end

section
/-! The assembler's forms and pseudo-instructions (30_encoding.md R81, R82): each operand, written as an integer or a
rational, against the bits the assembler puts into the word. -/

namespace Sys2Proof.Machine

open Sys2Proof

/-! ## Operands and the words that carry them (R71, R72) -/

/-- A word is the sum of its opcode's weight and its operand, as integers. -/
theorem commandWord_eq_ofInt (op a : Nat) : commandWord op a = BitVec.ofInt 32 (op * 16777216 + a) := by
  rw [commandWord, ← BitVec.ofInt_natCast]
  push_cast
  rfl

theorem ofNat_trunc24 (v : Int) : BitVec.ofNat 24 (trunc24 v) = BitVec.ofInt 24 v := by
  apply BitVec.eq_of_toNat_eq
  rw [BitVec.toNat_ofNat, BitVec.toNat_ofInt, trunc24]
  omega

/-- GAIN's word: its OP, then the operand in two's complement. -/
theorem commandWord_gain (v : Int) : commandWord 0x11 (trunc24 v) = 0x11#8 ++ BitVec.ofInt 24 v := by
  rw [commandWord_eq_append _ _ (trunc24_lt v), ofNat_trunc24]

/-- The operand of `GAIN g` is the floor R81 writes, though the model divides integers. -/
theorem gainOperand_eq_floor (num : Int) (den : Nat) (hden : 0 < den) :
    gainOperand num den = ⌊((num : ℚ) / (den : ℚ)) * 65536 + 1 / 2⌋ := by
  have hne : (den : ℚ) ≠ 0 := by exact_mod_cast hden.ne'
  have hquot : (num : ℚ) / den * 65536 + 1 / 2 =
      ((num * 131072 + den : ℤ) : ℚ) / ((2 * den : ℕ) : ℚ) := by
    push_cast
    field_simp
    ring
  rw [hquot, Rat.floor_intCast_div_natCast, gainOperand]
  push_cast
  rfl

/-- A range check from 0 hands on the integer itself, where `f` agrees with `g` on the natural numbers. -/
theorem inRange_zero_map {k : Nat} (out : BitVec k → AsmOut) (f : Nat → BitVec k) (g : Int → BitVec k)
    (h : ∀ n : Nat, f n = g n) (hi v : Int) :
    ((inRange 0 hi v).map fun n => out (f n)) = if 0 ≤ v ∧ v ≤ hi then some (out (g v)) else none := by
  rw [inRange]
  split_ifs with hv
  · exact congrArg (some ∘ out) ((h v.toNat).trans (by rw [Int.toNat_of_nonneg hv.1]))
  · rfl

/-! ## The forms (R81) -/

theorem assembleStmt_cfg (tag : Option Port) (r : Int) :
    assembleStmt tag (.cfg r) =
      if 0 ≤ r ∧ r ≤ 16777215 then
        some (.command (tag.getD .engine) (BitVec.ofInt 32 (0x01000000 + r))) else none :=
  inRange_zero_map (.command (tag.getD .engine)) (commandWord 0x01) (fun r => BitVec.ofInt 32 (0x01000000 + r))
    (commandWord_eq_ofInt 0x01) 16777215 r

theorem assembleStmt_render (tag : Option Port) (n : Int) :
    assembleStmt tag (.render n) =
      if 0 ≤ n ∧ n ≤ 16777215 then
        some (.command (tag.getD .engine) (BitVec.ofInt 32 (0x02000000 + n))) else none :=
  inRange_zero_map (.command (tag.getD .engine)) (commandWord 0x02) (fun n => BitVec.ofInt 32 (0x02000000 + n))
    (commandWord_eq_ofInt 0x02) 16777215 n

theorem commandWord_voice (on : Bool) (i : Nat) :
    commandWord 0x10 ((if on then 256 else 0) + i) =
      BitVec.ofInt 32 (0x10000000 + (if on then 256 else 0) + i) := by
  rw [commandWord_eq_ofInt]
  congr 1
  push_cast
  ring

theorem assembleStmt_voice (tag : Option Port) (i : Int) (on : Bool) :
    assembleStmt tag (.voice i on) =
      if 0 ≤ i ∧ i ≤ 255 then
        some (.command (tag.getD .control)
          (BitVec.ofInt 32 (0x10000000 + (if on then 256 else 0) + i))) else none :=
  inRange_zero_map (.command (tag.getD .control)) (fun i => commandWord 0x10 ((if on then 256 else 0) + i))
    (fun i => BitVec.ofInt 32 (0x10000000 + (if on then 256 else 0) + i)) (commandWord_voice on) 255 i

theorem assembleStmt_gainRaw (tag : Option Port) (v : Int) :
    assembleStmt tag (.gainRaw v) =
      if -8388608 ≤ v ∧ v ≤ 16777215 then
        some (.command (tag.getD .control) (0x11#8 ++ BitVec.ofInt 24 v)) else none := by
  rw [← commandWord_gain]
  rfl

theorem assembleStmt_gain (tag : Option Port) (num : Int) (den : Nat) :
    assembleStmt tag (.gain num den) =
      if -8388608 ≤ gainOperand num den ∧ gainOperand num den ≤ 8388607 then
        some (.command (tag.getD .control) (0x11#8 ++ BitVec.ofInt 24 (gainOperand num den))) else none := by
  rw [← commandWord_gain]
  rfl

theorem assembleStmt_rd (a : Int) :
    assembleStmt none (.rd a) = if 0 ≤ a ∧ a ≤ 255 then some (.read (BitVec.ofInt 8 a)) else none :=
  inRange_zero_map .read (BitVec.ofNat 8) (BitVec.ofInt 8) (fun n => (BitVec.ofInt_natCast 8 n).symm) 255 a

theorem assembleStmt_word (p : Port) (w : Int) :
    assembleStmt (some p) (.word w) =
      if 0 ≤ w ∧ w ≤ 4294967295 then some (.command p (BitVec.ofInt 32 w)) else none := by
  rw [← inRange_zero_map (.command p) (BitVec.ofNat 32) (BitVec.ofInt 32)
    (fun n => (BitVec.ofInt_natCast 32 n).symm) 4294967295 w]
  simp only [assembleStmt, AsmStmt.expand]
  cases inRange 0 4294967295 w <;> rfl

/-- Settles O7: each form by its equation; those without an operand compute. -/
theorem assemblerFormsEncode : Obligations.AssemblerFormsEncode := by
  unfold Obligations.AssemblerFormsEncode
  exact ⟨assembleStmt_cfg, assembleStmt_render, assembleStmt_voice, assembleStmt_gainRaw, fun _ => rfl,
    fun _ => rfl, rfl, assembleStmt_rd, fun _ _ => rfl, assembleStmt_word, fun _ => rfl⟩

/-- Settles O8: the form's operand is the rational floor, range check included. -/
theorem assemblerRoundsTheGain : Obligations.AssemblerRoundsTheGain := by
  unfold Obligations.AssemblerRoundsTheGain
  intro tag num den hden
  rw [← gainOperand_eq_floor num den hden]
  exact assembleStmt_gain tag num den

/-! ## The pseudo-instructions (R82) -/

theorem assembleStmt_expand (tag : Option Port) (st : AsmStmt) :
    assembleStmt tag st.expand = assembleStmt tag st := by
  cases st <;> rfl

/-- Settles O9: each pseudo-instruction assembles as its expansion, whose word is a constant of R82. -/
theorem pseudoInstructionsExpand : Obligations.PseudoInstructionsExpand := by
  unfold Obligations.PseudoInstructionsExpand
  intro tag i
  refine ⟨(assembleStmt_expand tag (.von i)).symm, (assembleStmt_expand tag (.voff i)).symm, ?_, ?_, ?_⟩
  · rw [← assembleStmt_expand]
    exact assembleStmt_gain tag 0 1
  · rw [← assembleStmt_expand]
    exact assembleStmt_gain tag 1 1
  · rw [← assembleStmt_expand]
    exact assembleStmt_cfg tag 0

end Sys2Proof.Machine
end

section
/-! The oscillator's operations (40_oscillator.md R101 to R105): the tuning word as the nearest integer, one tick, and a
voice's phase over the frame steps. -/

namespace Sys2Proof.Machine

open Sys2Proof

/-! ## Tuning (R101 to R103) -/

theorem tuningWord_toNat (f : Word) (sr : BitVec 24) :
    (tuningWord f sr).toNat =
      if sr = 0#24 then 0 else (f.toNat * 65536 + sr.toNat / 2) / sr.toNat % 4294967296 := by
  by_cases hsr : sr = 0#24
  · rw [if_pos hsr, hsr, tuningWord_zero]; rfl
  · rw [if_neg hsr, tuningWord_of_ne f sr hsr, BitVec.toNat_ofNat]

/-- OSC.SETRATE's rate is SR's value: it fits the 24 bits. -/
theorem oscSetRate_sr_toNat (rate : Nat) (s : State) (hrate : rate < 16777216) :
    (oscSetRate rate s).sr.toNat = rate := (BitVec.toNat_ofNat _ _).trans (Nat.mod_eq_of_lt hrate)

theorem oscSetFreq_ftw_same (s : State) (i : Voice) :
    (oscSetFreq s i).ftw[i] = tuningWord s.freq[i] s.sr := by
  simp [oscSetFreq]

theorem oscSetFreq_ftw_of_ne (s : State) (i j : Voice) (h : j ≠ i) : (oscSetFreq s i).ftw[j] = s.ftw[j] := by
  have hval : i.val ≠ j.val := fun hij => h (Fin.ext hij.symm)
  simp [oscSetFreq, hval]

/-- Settles O26: each operation is one write of its own element. -/
theorem datapathOperationsTouchOneVoice : Obligations.DatapathOperationsTouchOneVoice := by
  unfold Obligations.DatapathOperationsTouchOneVoice
  refine ⟨fun rate s hrate => ⟨_, rfl, rfl, oscSetRate_sr_toNat rate s hrate⟩,
    fun i s => ⟨_, rfl, rfl, oscSetFreq_ftw_of_ne s i, ?_⟩⟩
  rw [oscSetFreq_ftw_same, tuningWord_toNat]

/-- Division after adding half the divisor rounds to the nearest integer, ties up. -/
theorem add_half_div_nearest (n d : Nat) (hd : 0 < d) :
    2 * ((n + d / 2) / d) * d ≤ 2 * n + d ∧ 2 * n + d < 2 * ((n + d / 2) / d + 1) * d := by
  have hlo := Nat.div_mul_le_self (n + d / 2) d
  have hhi := Nat.lt_mul_of_div_lt (Nat.lt_succ_self ((n + d / 2) / d)) hd
  rw [Nat.succ_mul] at hhi
  rw [mul_assoc, mul_assoc, add_one_mul]
  omega

/-- Settles O19: with q the quotient before its low 32 bits are kept. -/
theorem tuningWordIsNearestTiesUp : Obligations.TuningWordIsNearestTiesUp := by
  unfold Obligations.TuningWordIsNearestTiesUp
  intro rate s hpos hrate
  have hval : (BitVec.ofNat 24 rate).toNat = rate := (BitVec.toNat_ofNat _ _).trans (Nat.mod_eq_of_lt hrate)
  have hne : BitVec.ofNat 24 rate ≠ 0#24 := fun h => by simp [h] at hval; omega
  refine ⟨_, exec_cfg_eq rate s, fun i =>
    ⟨(s.freq[i].toNat * 65536 + rate / 2) / rate, ?_, add_half_div_nearest _ rate hpos⟩⟩
  have hftw : (s.configured (BitVec.ofNat 24 rate)).ftw[i] = tuningWord s.freq[i] (BitVec.ofNat 24 rate) := by
    simp [State.configured]
  rw [hftw, tuningWord_toNat, if_neg hne, hval]

/-! ## Ticks and frames (R104, R105) -/

theorem oscTick_ph_same (s : State) (i : Voice) : (oscTick i s).2.ph[i] = s.ph[i] + s.ftw[i] := by
  simp [oscTick]

theorem oscTick_ph_of_ne (s : State) (i j : Voice) (h : j ≠ i) : (oscTick i s).2.ph[j] = s.ph[j] := by
  have hval : i.val ≠ j.val := fun hij => h (Fin.ext hij.symm)
  simp [oscTick, hval]

/-- After k frame steps of a configured bank an active voice has advanced k times, an inactive one not at all. -/
theorem frameStep_iterate_ph (k : Nat) (i : Voice) (s : State) (hsr : s.sr ≠ 0#24) :
    (frameStep^[k] s).ph[i] =
      if s.act.getLsbD i.val = true then s.ph[i] + BitVec.ofNat 32 k * s.ftw[i] else s.ph[i] := by
  induction k generalizing s with
  | zero => simp
  | succ k ih =>
    rw [Function.iterate_succ_apply, ih _ (by simpa using hsr)]
    simp only [frameStep_act, frameStep_ftw, frameStep_ph, mixFrame_ph]
    by_cases hact : s.act.getLsbD i.val = true
    · rw [if_pos hact, if_pos ⟨hsr, hact⟩, if_pos hact, Nat.add_comm k, BitVec.ofNat_add, BitVec.add_mul,
        BitVec.one_mul, BitVec.add_assoc]
    · rw [if_neg hact, if_neg fun h => hact h.2, if_neg hact]

/-- The phase after `k` advances, as a number (R105). -/
theorem phase_toNat (p f : Word) (k : Nat) :
    (p + BitVec.ofNat 32 k * f).toNat = (p.toNat + k * f.toNat) % 4294967296 := by
  simp [BitVec.toNat_add, BitVec.toNat_mul]

/-- Settles O31: one tick writes one phase, and the frame steps add FTW to it k times. -/
theorem tickSamplesThenAdvances : Obligations.TickSamplesThenAdvances := by
  unfold Obligations.TickSamplesThenAdvances
  refine ⟨fun i s => ⟨_, rfl, rfl, ?_, oscTick_ph_of_ne s i⟩,
    fun k i s hsr => ⟨fun hact => ?_, fun hact => ?_⟩⟩
  · exact (congrArg BitVec.toNat (oscTick_ph_same s i)).trans (BitVec.toNat_add _ _)
  · have hph := frameStep_iterate_ph k i s hsr
    rw [if_pos hact] at hph
    exact ⟨by rw [hph, phase_toNat], congrArg oscSine hph⟩
  · rw [frameStep_iterate_ph k i s hsr, if_neg (ne_true_of_eq_false hact)]

end Sys2Proof.Machine
end

section
/-! OSC.SINE (40_oscillator.md R106, R107): the quadrants, the symmetries, and the distance from the real sine. -/

namespace Sys2Proof.Machine

open Sys2Proof

/-! ## The cycle of samples by phase index (R106) -/

/-- The sample of phase index `idx`: the quarter-wave ROM read forwards, backwards, and both once more negated. -/
def cycleSample (idx : Nat) : Int :=
  if idx < 256 then (sinq idx : Int)
  else if idx < 512 then (sinq (512 - idx) : Int)
  else if idx < 768 then -(sinq (idx - 512) : Int)
  else -(sinq (1024 - idx) : Int)

theorem oscSine_eq_cycleSample (p : Word) : oscSine p = cycleSample (p.toNat / 4194304) := oscSine_eq p

theorem cycleSample_first_quadrant {idx : Nat} (h : idx < 256) : cycleSample idx = sinq idx := if_pos h

theorem cycleSample_second_quadrant {idx : Nat} (h1 : 256 ≤ idx) (h2 : idx < 512) :
    cycleSample idx = sinq (512 - idx) := by
  rw [cycleSample, if_neg (by omega), if_pos h2]

theorem cycleSample_third_quadrant {idx : Nat} (h1 : 512 ≤ idx) (h2 : idx < 768) :
    cycleSample idx = -(sinq (idx - 512) : Int) := by
  rw [cycleSample, if_neg (by omega), if_neg (by omega), if_pos h2]

theorem cycleSample_fourth_quadrant {idx : Nat} (h : 768 ≤ idx) : cycleSample idx = -(sinq (1024 - idx) : Int) := by
  rw [cycleSample, if_neg (by omega), if_neg (by omega), if_neg (by omega)]

/-- Settles O29: one quadrant, one branch. -/
theorem sineFromTheQuarterWave : Obligations.SineFromTheQuarterWave := by
  unfold Obligations.SineFromTheQuarterWave
  intro p
  rw [oscSine_eq_cycleSample]
  exact ⟨cycleSample_first_quadrant, cycleSample_second_quadrant, cycleSample_third_quadrant,
    cycleSample_fourth_quadrant⟩

/-! ## Symmetries (R107) -/

theorem cycleSample_half_cycle (idx : Nat) (h : idx < 512) : cycleSample (idx + 512) = -cycleSample idx := by
  rcases Nat.lt_or_ge idx 256 with h1 | h1
  · rw [cycleSample_first_quadrant h1, cycleSample_third_quadrant (by omega) (by omega), Nat.add_sub_cancel]
  · rw [cycleSample_second_quadrant h1 h, cycleSample_fourth_quadrant (by omega)]
    rw [show 1024 - (idx + 512) = 512 - idx by omega]

/-- The first half cycle is symmetric about its middle; its two ends are both 0. -/
theorem cycleSample_reflect (k : Nat) (h : k ≤ 512) : cycleSample (512 - k) = cycleSample k := by
  rcases (by omega : k = 0 ∨ k = 512 ∨ k = 256 ∨ 0 < k ∧ k < 256 ∨ 256 < k ∧ k < 512) with
    rfl | rfl | rfl | ⟨h1, h2⟩ | ⟨h1, h2⟩
  · decide
  · decide
  · rfl
  · rw [cycleSample_first_quadrant h2, cycleSample_second_quadrant (by omega) (by omega)]
    rw [show 512 - (512 - k) = k by omega]
  · rw [cycleSample_second_quadrant h1.le h2, cycleSample_first_quadrant (by omega)]

/-- The whole cycle is odd: half a cycle further on, the reflected sample has the other sign. -/
theorem cycleSample_odd (k : Nat) (h0 : 0 < k) (h : k < 1024) : cycleSample (1024 - k) = -cycleSample k := by
  rcases le_or_gt k 512 with h1 | h1
  · rw [← cycleSample_reflect k h1, ← cycleSample_half_cycle _ (by omega)]
    congr 1
    omega
  · rw [← cycleSample_reflect (1024 - k) (by omega), ← neg_eq_iff_eq_neg, ← cycleSample_half_cycle _ (by omega)]
    congr 1
    omega

theorem phaseIndex_half_cycle (p : Word) :
    (p + 0x80000000#32).toNat / 4194304 = (p.toNat / 4194304 + 512) % 1024 := by
  have hp := p.isLt
  rw [BitVec.toNat_add]
  simp only [BitVec.toNat_ofNat, Nat.reducePow, Nat.reduceMod]
  omega

theorem oscSine_half_cycle (p : Word) : oscSine (p + 0x80000000#32) = -oscSine p := by
  have hp := p.isLt
  rw [oscSine_eq_cycleSample, oscSine_eq_cycleSample, phaseIndex_half_cycle]
  generalize hidx : p.toNat / 4194304 = idx
  rcases Nat.lt_or_ge idx 512 with h | h
  · rw [Nat.mod_eq_of_lt (by omega), cycleSample_half_cycle idx h]
  · obtain ⟨j, rfl⟩ : ∃ j, idx = j + 512 := ⟨idx - 512, by omega⟩
    rw [show (j + 512 + 512) % 1024 = j by omega, cycleSample_half_cycle j (by omega), neg_neg]

/-- The sample of a grid phase, a multiple of 2^22 below the whole cycle. -/
theorem oscSine_grid (k : Nat) (h : k < 1024) : oscSine (BitVec.ofNat 32 (k * 4194304)) = cycleSample k := by
  rw [oscSine_eq_cycleSample, BitVec.toNat_ofNat, Nat.mod_eq_of_lt (by omega)]
  congr 1
  omega

theorem oscSine_grid_reflect (k : Nat) (h : k ≤ 512) :
    oscSine (BitVec.ofNat 32 (2147483648 - k * 4194304)) = oscSine (BitVec.ofNat 32 (k * 4194304)) := by
  rw [show 2147483648 - k * 4194304 = (512 - k) * 4194304 by omega, oscSine_grid _ (by omega),
    oscSine_grid k (by omega), cycleSample_reflect k h]

theorem oscSine_grid_odd (k : Nat) (h : k < 1024) :
    oscSine (BitVec.ofNat 32 (4294967296 - k * 4194304)) = -oscSine (BitVec.ofNat 32 (k * 4194304)) := by
  rcases Nat.eq_zero_or_pos k with rfl | h0
  · decide
  · rw [show 4294967296 - k * 4194304 = (1024 - k) * 4194304 by omega, oscSine_grid _ (by omega),
      oscSine_grid k h, cycleSample_odd k h0 h]

/-- Settles O30: each law from the ROM's range or from the cycle's symmetry. -/
theorem sineSymmetries : Obligations.SineSymmetries := by
  unfold Obligations.SineSymmetries
  exact ⟨fun p => abs_le.mpr (oscSine_bound p), oscSine_half_cycle, oscSine_grid_reflect, oscSine_grid_odd⟩

/-! ## Distance from the real sine (R107) -/

/-- The angle of a phase index: 1024 indices make a turn. -/
noncomputable def indexAngle (idx : Nat) : ℝ := Real.pi / 2 * ((idx : ℝ) / 256)

theorem indexAngle_add_512 (idx : Nat) : indexAngle (idx + 512) = indexAngle idx + Real.pi := by
  rw [indexAngle, indexAngle]
  push_cast
  ring

theorem indexAngle_512_sub (idx : Nat) (h : idx ≤ 512) : indexAngle (512 - idx) = Real.pi - indexAngle idx := by
  rw [indexAngle, indexAngle, Nat.cast_sub h]
  push_cast
  ring

/-- In the first half cycle the sample is the rounded sine of its index's angle. -/
theorem cycleSample_near_sin_first_half (idx : Nat) (h : idx < 512) :
    |(cycleSample idx : ℝ) - 32767 * Real.sin (indexAngle idx)| < 1 / 2 := by
  rw [abs_sub_comm]
  rcases Nat.lt_or_ge idx 256 with h1 | h1
  · rw [cycleSample_first_quadrant h1]
    exact_mod_cast sinq_near_sin idx h1.le
  · have hsin := sinq_near_sin (512 - idx) (by omega)
    rw [← indexAngle, indexAngle_512_sub idx h.le, Real.sin_pi_sub] at hsin
    rw [cycleSample_second_quadrant h1 h]
    exact_mod_cast hsin

theorem cycleSample_near_sin (idx : Nat) (h : idx < 1024) :
    |(cycleSample idx : ℝ) - 32767 * Real.sin (indexAngle idx)| < 1 / 2 := by
  rcases Nat.lt_or_ge idx 512 with h1 | h1
  · exact cycleSample_near_sin_first_half idx h1
  · obtain ⟨j, rfl⟩ : ∃ j, idx = j + 512 := ⟨idx - 512, by omega⟩
    have hj := cycleSample_near_sin_first_half j (by omega)
    rw [cycleSample_half_cycle j (by omega), indexAngle_add_512, Real.sin_add_pi]
    push_cast
    rwa [mul_neg, neg_sub_neg, abs_sub_comm]

/-- A phase's angle is less than one index, pi/512, past that of its index. -/
theorem phaseAngle_near_indexAngle (p : Word) :
    |indexAngle (p.toNat / 4194304) - 2 * Real.pi * (p.toNat : ℝ) / 4294967296| ≤ Real.pi / 512 := by
  have hsplit : (p.toNat : ℝ) = 4194304 * (p.toNat / 4194304 : ℕ) + (p.toNat % 4194304 : ℕ) := by
    exact_mod_cast (Nat.div_add_mod p.toNat 4194304).symm
  have hrem : ((p.toNat % 4194304 : ℕ) : ℝ) ≤ 4194304 := by
    exact_mod_cast (Nat.mod_lt p.toNat (by norm_num)).le
  have hdiff : indexAngle (p.toNat / 4194304) - 2 * Real.pi * (p.toNat : ℝ) / 4294967296 =
      -(Real.pi / 512 * ((p.toNat % 4194304 : ℕ) / 4194304)) := by
    rw [hsplit, indexAngle]
    ring
  rw [hdiff, abs_neg, abs_of_nonneg (by positivity)]
  exact mul_le_of_le_one_right (by positivity) (by linarith)

/-- Settles O28: the ROM rounds by less than 1/2, and the phase's low bits move a sine of slope at most 1 by less than
pi/512. -/
theorem sineIsNearTheIdeal : Obligations.SineIsNearTheIdeal := by
  unfold Obligations.SineIsNearTheIdeal
  intro p
  have hp := p.isLt
  rw [oscSine_eq_cycleSample]
  have hangle := phaseAngle_near_indexAngle p
  generalize 2 * Real.pi * (p.toNat : ℝ) / 4294967296 = θ at hangle ⊢
  have hrom := cycleSample_near_sin (p.toNat / 4194304) (by omega)
  have hslope := (Real.abs_sin_sub_sin_le _ θ).trans hangle
  have hpi := Real.pi_lt_d4
  rw [abs_lt] at hrom ⊢
  rw [abs_le] at hslope
  constructor <;> linarith

end Sys2Proof.Machine
end

section
/-! Zero crossings (40_oscillator.md R108): the unwrapped phase passes windows of one sign class each, and a step shorter
than the shorter window enters at most the next one, so the crossings are the windows passed. -/

namespace Sys2Proof.Machine

open Sys2Proof

/-- The number of the sign-class window an unwrapped phase lies in: even for indices 0..512 of its turn, odd for
513..1023. -/
def signWindow (x : Nat) : Nat :=
  2 * (x / 4294967296) + if x % 4294967296 < 513 * 4194304 then 0 else 1

theorem signWindow_even_iff (x : Nat) : signWindow x % 2 = 0 ↔ x % 4294967296 < 513 * 4194304 := by
  rw [signWindow]
  split_ifs with h
  · simp [h]
  · simp only [h, iff_false]
    omega

/-- A step shorter than the negative window, the shorter one, cannot jump a window. -/
theorem signWindow_step (x f : Nat) (hf : f < 511 * 4194304) :
    signWindow (x + f) = signWindow x ∨ signWindow (x + f) = signWindow x + 1 := by
  rw [signWindow, signWindow]
  split_ifs <;> omega

/-- A sample's sign class is the parity of its unwrapped phase's window. -/
theorem sampleAt_nonneg_iff (p f : Word) (j : Nat) :
    0 ≤ sampleAt p f j ↔ signWindow (p.toNat + j * f.toNat) % 2 = 0 := by
  rw [sampleAt, oscSine_nonneg_iff, phase_toNat, signWindow_even_iff]

theorem zeroCrossings_succ_succ (p f : Word) (n : Nat) :
    zeroCrossings p f (n + 2) = zeroCrossings p f (n + 1) +
      if decide (0 ≤ sampleAt p f n) != decide (0 ≤ sampleAt p f (n + 1)) then 1 else 0 := by
  simp only [zeroCrossings, Nat.add_one_sub_one, List.range_succ, List.countP_append,
    List.countP_singleton]

/-- The crossings in n + 1 frames are the windows passed in n steps. -/
theorem zeroCrossings_eq_windows_passed (p f : Word) (hf : f.toNat < 511 * 4194304) (n : Nat) :
    signWindow p.toNat + zeroCrossings p f (n + 1) = signWindow (p.toNat + n * f.toNat) := by
  induction n with
  | zero => simp [zeroCrossings]
  | succ n ih =>
    have hnext : p.toNat + (n + 1) * f.toNat = p.toNat + n * f.toNat + f.toNat := by ring
    have hn := sampleAt_nonneg_iff p f n
    have hn1 := sampleAt_nonneg_iff p f (n + 1)
    rw [zeroCrossings_succ_succ, ← Nat.add_assoc, ih, hnext]
    rw [hnext] at hn1
    rcases signWindow_step (p.toNat + n * f.toNat) f.toNat hf with h | h
    · rw [h] at hn1 ⊢
      simp [hn, hn1]
    · rw [h] at hn1 ⊢
      simp only [hn, hn1]
      rcases Nat.mod_two_eq_zero_or_one (signWindow (p.toNat + n * f.toNat)) with hpar | hpar <;>
        simp [hpar, Nat.add_mod]

/-- The windows passed from a first phase within its turn, against the turns of the whole advance `d + f`. -/
theorem signWindow_near_turns (p d f : Nat) (hf : f < 511 * 4194304) :
    2 * ((d + f) / 4294967296) + signWindow p ≤ signWindow (p + d) + 2 ∧
      signWindow (p + d) ≤ 2 * ((d + f) / 4294967296) + 2 + signWindow p := by
  rw [signWindow, signWindow]
  split_ifs <;> omega

/-- Settles O32: the crossings are the windows passed, two to a turn. -/
theorem zeroCrossingsMatchTheFrequency : Obligations.ZeroCrossingsMatchTheFrequency := by
  unfold Obligations.ZeroCrossingsMatchTheFrequency
  intro p f k hf hk
  obtain ⟨n, rfl⟩ := Nat.exists_eq_add_of_le' hk
  have hpassed := zeroCrossings_eq_windows_passed p f hf n
  obtain ⟨hlo, hhi⟩ := signWindow_near_turns p.toNat (n * f.toNat) f.toNat hf
  rw [Nat.add_one_mul n]
  omega

end Sys2Proof.Machine
end

section
/-! The sequencers and the commands (41_voice_bank.md R121 to R128): what a turn of ENG and of CTL does, and what each
command writes and leaves. -/

namespace Sys2Proof.Machine

open Sys2Proof

/-! ## The sequencers' turns (R121, R128) -/

theorem engTurn_renders (s : State) (hrem : s.rem ≠ 0#24) (hroom : s.outq.length < s.outqDepth) :
    engTurn s = .next (frameStep s) := by
  rw [engTurn, if_neg hrem, if_pos hroom]

theorem engTurn_holds (s : State) (hrem : s.rem ≠ 0#24) (hfull : s.outqDepth ≤ s.outq.length) :
    engTurn s = .next s := by
  rw [engTurn, if_neg hrem, if_neg hfull.not_gt]

/-- ENG's turn with REM > 0 and room in OUTQ is one frame step. -/
theorem step_renders (s : State) (hturn : s.nextTurn = .eng) (hrem : s.rem ≠ 0#24)
    (hroom : s.outq.length < s.outqDepth) : step s = .next (frameStep s.takeTurn) :=
  (step_of_nextTurn s _ hturn).trans (engTurn_renders _ (by simpa using hrem) (by simpa using hroom))

/-- ENG's turn with REM > 0 and OUTQ full is a hold. -/
theorem step_holds (s : State) (hturn : s.nextTurn = .eng) (hrem : s.rem ≠ 0#24)
    (hfull : s.outqDepth ≤ s.outq.length) : step s = .next s.takeTurn :=
  (step_of_nextTurn s _ hturn).trans (engTurn_holds _ (by simpa using hrem) (by simpa using hfull))

/-- While a render is in progress, ENG's turn answers and its port's words keep waiting. -/
theorem step_waits_during_render (s : State) (hturn : s.nextTurn = .eng) (hrem : s.rem ≠ 0#24) :
    ∃ t, step s = .next t ∧ t.engIn = s.engIn := by
  obtain ⟨t, ht, hwaits⟩ := engTurn_waits_during_render s.takeTurn (by simpa using hrem)
  exact ⟨t, (step_of_nextTurn s _ hturn).trans ht, by rw [hwaits, State.takeTurn_engIn]⟩

/-- Settles O13: ENG's four situations, by REM and then by the waiting word or the room in OUTQ. -/
theorem engineTurnFollowsItsRule : Obligations.EngineTurnFollowsItsRule := by
  unfold Obligations.EngineTurnFollowsItsRule
  intro s hturn
  have hstep : step s = engTurn s.takeTurn := step_of_nextTurn s _ hturn
  refine ⟨fun hrem hin => ?_, fun hrem w rest hin => ?_, step_renders s hturn, step_holds s hturn⟩
  · rw [hstep, engTurn_idle _ (by simpa using hrem) (by simpa using hin)]
  · rw [hstep, engTurn_of_waiting _ w rest (by simpa using hrem) (by simpa using hin)]
    rfl

/-- Settles O14: CTL's turn takes the word off its port; REM and OUTQ are not CTL's to write, and nor is the
engine port. -/
theorem controlPortIsNeverBlocked : Obligations.ControlPortIsNeverBlocked := by
  unfold Obligations.ControlPortIsNeverBlocked
  intro s w rest hturn hin
  have hstep : step s = ctlTurn s.takeTurn := step_of_nextTurn s _ hturn
  refine ⟨?_, ?_⟩
  · obtain ⟨t, ht, hctl⟩ := ctlTurn_accepts s.takeTurn w rest (by simpa using hin)
    have heng := ctlTurn_keeps_engIn _ _ ht
    obtain ⟨-, hrem, houtq⟩ := onlyFramesMovePhases s t (hstep.trans ht) (by rw [hturn]; rfl)
    refine ⟨t, hstep.trans ht, hctl, by rw [heng, State.takeTurn_engIn], ?_, ?_⟩
    · by_contra hne
      cases hturn.symm.trans (hrem hne).1
    · by_contra hne
      rcases houtq hne with h | ⟨h, -⟩ <;> cases hturn.symm.trans h
  · rw [hstep, ctlTurn_of_waiting _ w rest (by simpa using hin)]
    rfl

/-! ## The engine port's commands (R122, R126, R127) -/

/-- An engine word that is a command: ENG runs it while REM = 0, and it keeps waiting while REM > 0. -/
theorem step_engine_command (s : State) (w : Word) (rest : List Word) (i : Instr) (hturn : s.nextTurn = .eng)
    (hin : s.engIn = w :: rest) (hdec : decode .engine w = .command i) :
    (s.rem = 0#24 → step s = exec i { s.takeTurn with engIn := rest }) ∧
      (s.rem ≠ 0#24 → ∃ t, step s = .next t ∧ t.engIn = w :: rest) :=
  ⟨fun hrem => stepRunsTheDecodedInstruction.1 s w rest i hturn hrem hin hdec,
    fun hrem => hin ▸ step_waits_during_render s hturn hrem⟩

theorem decode_nop (p : Port) (w : Word) (hop : opcode w = 0x00) : decode p w = .command .nop := by
  obtain ⟨hnop, -⟩ := opcodeMapAndOperands w
  exact hnop (by rwa [← opcode_eq]) p

theorem decode_cfg (w : Word) (hop : opcode w = 0x01) :
    decode .engine w = .command (.cfg (w.toNat % 16777216)) ∧ decode .control w = .ignored .wrongPort := by
  obtain ⟨-, hcfg, -⟩ := opcodeMapAndOperands w
  exact hcfg (by rwa [← opcode_eq])

theorem decode_render (w : Word) (hop : opcode w = 0x02) :
    decode .engine w = .command (.render (w.toNat % 16777216)) ∧
      decode .control w = .ignored .wrongPort := by
  obtain ⟨-, -, hrender, -⟩ := opcodeMapAndOperands w
  exact hrender (by rwa [← opcode_eq])

/-- Settles O17: NOP's meaning is the identity, and the engine port treats it as every command. -/
theorem nopChangesNothing : Obligations.NopChangesNothing := by
  unfold Obligations.NopChangesNothing
  exact ⟨fun s => rfl, decode_nop,
    fun s w rest hturn hin hop => step_engine_command s w rest .nop hturn hin (decode_nop .engine w hop)⟩

/-- A tuning word of the configured bank, as a number (R102). -/
theorem configured_ftw_toNat (s : State) (rate : Nat) (hrate : rate < 16777216) (i : Voice) :
    (s.configured (BitVec.ofNat 24 rate)).ftw[i].toNat =
      if rate = 0 then 0 else (s.freq[i].toNat * 65536 + rate / 2) / rate % 4294967296 := by
  have hval : (BitVec.ofNat 24 rate).toNat = rate := (BitVec.toNat_ofNat _ _).trans (Nat.mod_eq_of_lt hrate)
  have hzero : BitVec.ofNat 24 rate = 0#24 ↔ rate = 0 := by
    rw [← BitVec.toNat_inj, hval]; rfl
  have hftw : (s.configured (BitVec.ofNat 24 rate)).ftw[i] = tuningWord s.freq[i] (BitVec.ofNat 24 rate) := by
    simp [State.configured]
  rw [hftw, tuningWord_toNat, hval]
  simp only [hzero]

/-- Settles O18: CFG is one write of SR and the tuning words; while REM > 0 its word waits and neither moves. -/
theorem cfgSetsRateAndTuningWords : Obligations.CfgSetsRateAndTuningWords := by
  unfold Obligations.CfgSetsRateAndTuningWords
  refine ⟨fun rate s hrate => ⟨_, exec_cfg_eq rate s, rfl, oscSetRate_sr_toNat rate s hrate,
    configured_ftw_toNat s rate hrate⟩, decode_cfg, fun s w rest hturn hin hop => ?_⟩
  obtain ⟨hruns, hwaits⟩ := step_engine_command s w rest _ hturn hin (decode_cfg w hop).1
  refine ⟨hruns, fun hrem => ?_⟩
  obtain ⟨t, ht, heng⟩ := hwaits hrem
  exact ⟨t, ht, heng, step_keeps_rate_during_render s t ht hrem (by rw [hturn]; rfl)⟩

/-- Settles O20: RENDER is one write of REM. -/
theorem renderSetsTheFrameCount : Obligations.RenderSetsTheFrameCount := by
  unfold Obligations.RenderSetsTheFrameCount
  exact ⟨fun n s hn => ⟨_, rfl, rfl, (BitVec.toNat_ofNat _ _).trans (Nat.mod_eq_of_lt hn)⟩, decode_render,
    fun s w rest hturn hin hop => step_engine_command s w rest _ hturn hin (decode_render w hop).1⟩

/-! ## The control port's commands (R123 to R125) -/

theorem exec_voice_of_gt (idx : Nat) (on : Bool) (s : State) (hidx : 16 < idx) :
    exec (.voice idx on) s = .next s := if_neg hidx.not_ge

/-- Settles O21: VOICE is one write of one bit for an index up to 16, and the identity above it. -/
theorem voiceWritesOneActiveBit : Obligations.VoiceWritesOneActiveBit := by
  unfold Obligations.VoiceWritesOneActiveBit
  refine ⟨fun idx on s => ?_, fun w hop => ?_⟩
  · rcases Nat.lt_or_ge 16 idx with hidx | hidx
    · exact ⟨s, exec_voice_of_gt idx on s hidx, rfl, fun k hk => (if_neg (by omega)).symm, fun _ => rfl⟩
    · exact ⟨_, exec_voice_of_le idx on s hidx, rfl, fun k hk => setBit_getLsbD s.act idx k on hk,
        fun hgt => absurd hgt hidx.not_gt⟩
  · obtain ⟨-, -, -, hvoice, -⟩ := opcodeMapAndOperands w
    exact hvoice (by rwa [← opcode_eq])

/-- GAIN's operand below, above and within the range of G (R12, R124). -/
theorem clampedGain_toNat (gv : Int) :
    (gv ≤ 0 → (BitVec.ofInt 17 (clamp gv 0 65536)).toNat = 0) ∧
      (65536 ≤ gv → (BitVec.ofInt 17 (clamp gv 0 65536)).toNat = 65536) ∧
      (0 ≤ gv → gv ≤ 65536 → ((BitVec.ofInt 17 (clamp gv 0 65536)).toNat : Int) = gv) := by
  rw [BitVec.toNat_ofInt, clamp]
  split_ifs <;> omega

/-- Settles O22: GAIN is one write of the clamped operand to G. -/
theorem gainIsClamped : Obligations.GainIsClamped := by
  unfold Obligations.GainIsClamped
  refine ⟨fun gv s => ?_, fun w hop => ?_⟩
  · obtain ⟨hlow, hhigh, hwithin⟩ := clampedGain_toNat gv
    exact ⟨_, rfl, rfl, fun h => hlow h.le, fun h => hhigh h.le, hwithin⟩
  · obtain ⟨-, -, -, -, hgain, -⟩ := opcodeMapAndOperands w
    exact hgain (by rwa [← opcode_eq])

/-- With no active bit there is no active voice (R30). -/
theorem activeVoices_of_act_zero (s : State) (hact : s.act = 0#17) : s.activeVoices = ∅ := by
  simp [State.activeVoices, hact]

/-- Settles O23: RELALL is one write of the zero mask. -/
theorem relallReleasesEveryVoice : Obligations.RelallReleasesEveryVoice := by
  unfold Obligations.RelallReleasesEveryVoice
  refine ⟨fun s => ⟨s.setAct 0#17, rfl, rfl, fun k => BitVec.getLsbD_zero,
    activeVoices_of_act_zero _ rfl⟩, fun w hop => ?_⟩
  obtain ⟨-, -, -, -, -, hrelall, -⟩ := opcodeMapAndOperands w
  exact hrelall (by rwa [← opcode_eq])

end Sys2Proof.Machine
end

section
/-! Frames (41_voice_bank.md R130 to R132): the frame step in full, its bounds, silence, and superposition. -/

namespace Sys2Proof.Machine

open Sys2Proof

/-! ## The sample and its frame word (R130, R131) -/

/-- The sample of a sounding bank is the scaled sum, truncated toward zero. -/
theorem mixFrame_sample (s : State) (hsr : s.sr ≠ 0#24) (hact : s.act ≠ 0#17) :
    (mixFrame s).1 = ((∑ i ∈ s.activeVoices, oscSine s.ph[i]) * (s.gain.toNat : Int)).tdiv
      ((s.activeVoices.card : Int) * 65536) := by
  rw [mixFrame_sounding s hsr hact, scaleMix_eq_tdiv, nActive_eq_card]
  rfl

@[simp] theorem mixFrame_takeTurn_sample (s : State) : (mixFrame s.takeTurn).1 = (mixFrame s).1 := by
  have hstored := mixFrame_stored s.takeTurn
  rw [State.takeTurn_stored, mixFrame_stored] at hstored
  exact (congrArg Prod.fst hstored).symm

/-- A frame step of a silent bank appends the word 0 and holds every phase (R132). -/
theorem frameStep_silent (s : State) (hsilent : s.sr = 0#24 ∨ s.act = 0#17) :
    (frameStep s).outq = s.outq ++ [0#32] ∧ (frameStep s).ph = s.ph := by
  rw [frameStep_outq, frameStep_ph, mixFrame_silent s hsilent, frameWord_zero]
  exact ⟨rfl, rfl⟩

/-- Settles O33: the frame step's whole effect, with the sample in its two cases. -/
theorem frameStepMixesOneFrame : Obligations.FrameStepMixesOneFrame := by
  unfold Obligations.FrameStepMixesOneFrame
  intro s hturn hrem hroom
  refine ⟨frameStep s.takeTurn, (mixFrame s).1, frameWord (mixFrame s).1, step_renders s hturn hrem hroom,
    ?_, ?_, frameWord_left _, frameWord_right _, fun hsilent => ?_, mixFrame_sample s, fun i => ?_⟩
  · simp [frameStep_eq]
  · rw [frameStep_rem, State.takeTurn_rem]
    bv_omega
  · rw [mixFrame_silent s hsilent]
  · rw [frameStep_ph, mixFrame_ph]
    simp

/-- Settles O34: a sample within the bound is read back exactly from either half of its word. -/
theorem framesNeverExceedTheGain : Obligations.FramesNeverExceedTheGain := by
  unfold Obligations.FramesNeverExceedTheGain
  intro s hgain hturn hrem hroom
  have hbound := mixFrame_bound s
  refine ⟨_, frameWord (mixFrame s).1, step_renders s hturn hrem hroom, by simp, ?_,
    (frameWord_right _).trans (frameWord_left _).symm⟩
  rwa [frameWord_left, ofInt16_toInt _ (by omega) (by omega)]

/-- Settles O35: a frame step of a silent bank. -/
theorem silentFramesAreZero : Obligations.SilentFramesAreZero := by
  unfold Obligations.SilentFramesAreZero
  intro s hsilent hturn hrem hroom
  obtain ⟨houtq, hph⟩ := frameStep_silent s.takeTurn (by simpa using hsilent)
  exact ⟨_, step_renders s hturn hrem hroom, by simpa using houtq, by simpa using hph⟩

/-- Settles O38: after RELALL the bank is silent. -/
theorem releaseAllSilencesTheNextFrame : Obligations.ReleaseAllSilencesTheNextFrame := by
  unfold Obligations.ReleaseAllSilencesTheNextFrame
  exact fun s => ⟨_, rfl, frameStep_silent (s.setAct 0#17) (.inr rfl)⟩

/-- With gain 0 a frame step appends the word 0 (R132). -/
theorem frameStep_outq_of_gain_zero (s : State) (hgain : s.gain.toNat = 0) :
    (frameStep s).outq = s.outq ++ [0#32] := by
  have hbound := mixFrame_bound s
  have hzero : (mixFrame s).1 = 0 := by rw [hgain] at hbound; omega
  rw [frameStep_outq, hzero, frameWord_zero]

/-- Settles O36: GAIN leaves gain 0 at or below 0, and gain 65536 at or above 65536. -/
theorem clampedGainsBoundTheFrame : Obligations.ClampedGainsBoundTheFrame := by
  unfold Obligations.ClampedGainsBoundTheFrame
  intro gv s
  obtain ⟨hlow, hhigh, -⟩ := clampedGain_toNat gv
  refine ⟨_, rfl, fun hle => frameStep_outq_of_gain_zero (s.setGain _) (hlow hle), fun hge => ?_⟩
  have hgain : BitVec.ofInt 17 (clamp gv 0 65536) = 0x10000#17 := BitVec.eq_of_toNat_eq (hhigh hge)
  rw [hgain]
  rfl

/-! ## Superposition (R132) -/

theorem mem_activeVoices (s : State) (i : Voice) : i ∈ s.activeVoices ↔ s.act.getLsbD i.val = true := by
  rw [State.activeVoices, Finset.mem_filter, and_iff_right (Finset.mem_univ i)]

/-- Setting a bit of ACT adds its voice to the active ones. -/
theorem activeVoices_setBit (s : State) (m : BitVec 17) (i : Voice) :
    (s.setAct (setBit m i.val true)).activeVoices = insert i (s.setAct m).activeVoices := by
  ext k
  simp only [mem_activeVoices, Finset.mem_insert, State.setAct_act,
    setBit_getLsbD m i.val k.val true k.isLt, Fin.ext_iff]
  split_ifs with hki <;> simp [hki]

theorem setBit_true_ne_zero (m : BitVec 17) (i : Voice) : setBit m i.val true ≠ 0#17 := fun hzero => by
  have hbit := setBit_getLsbD m i.val i.val true i.isLt
  simp [hzero] at hbit

/-- The sample of the bank with the mask `m` as its active voices, at the same phases and gain. -/
theorem mixFrame_sample_setAct (s : State) (m : BitVec 17) (hsr : s.sr ≠ 0#24) (hm : m ≠ 0#17) :
    (mixFrame (s.setAct m)).1 = ((∑ i ∈ (s.setAct m).activeVoices, oscSine s.ph[i]) * (s.gain.toNat : Int)).tdiv
      (((s.setAct m).activeVoices.card : Int) * 65536) := mixFrame_sample (s.setAct m) hsr hm

/-- The sample of one voice alone. -/
theorem mixFrame_one_voice (s : State) (i : Voice) (hsr : s.sr ≠ 0#24) :
    (mixFrame (s.setAct (setBit 0#17 i.val true))).1 =
      (oscSine s.ph[i] * (s.gain.toNat : Int)).tdiv 65536 := by
  have hvoices : (s.setAct (setBit 0#17 i.val true)).activeVoices = {i} := by
    rw [activeVoices_setBit, activeVoices_of_act_zero _ rfl, insert_empty_eq]
  rw [mixFrame_sample_setAct s _ hsr (setBit_true_ne_zero _ i), hvoices, Finset.sum_singleton, Finset.card_singleton,
    Nat.cast_one, one_mul]

/-- The sample of two different voices together. -/
theorem mixFrame_two_voices (s : State) (i j : Voice) (hij : i ≠ j) (hsr : s.sr ≠ 0#24) :
    (mixFrame (s.setAct (setBit (setBit 0#17 i.val true) j.val true))).1 =
      (oscSine s.ph[i] * (s.gain.toNat : Int) + oscSine s.ph[j] * (s.gain.toNat : Int)).tdiv 131072 := by
  have hvoices : (s.setAct (setBit (setBit 0#17 i.val true) j.val true)).activeVoices = {i, j} := by
    rw [activeVoices_setBit, activeVoices_setBit, activeVoices_of_act_zero _ rfl, insert_empty_eq,
      Finset.pair_comm]
  rw [mixFrame_sample_setAct s _ hsr (setBit_true_ne_zero _ j), hvoices, Finset.sum_pair hij, Finset.card_pair hij,
    add_mul]
  norm_num

/-- What truncation toward zero drops: less than the divisor, with the sign of the dividend. -/
theorem tdiv_remainder (x n : Int) (hn : 0 < n) :
    (0 ≤ x ∧ 0 ≤ x - n * x.tdiv n ∧ x - n * x.tdiv n < n) ∨
      (x ≤ 0 ∧ -n < x - n * x.tdiv n ∧ x - n * x.tdiv n ≤ 0) := by
  rw [← Int.tmod_def]
  rcases Int.le_total 0 x with hx | hx
  · exact .inl ⟨hx, Int.tmod_nonneg n hx, Int.tmod_lt_of_pos x hn⟩
  · have hneg : 0 ≤ (-x).tmod n := Int.tmod_nonneg n (by omega)
    rw [Int.neg_tmod] at hneg
    exact .inr ⟨hx, Int.lt_tmod_of_pos x hn, by omega⟩

/-- Halving a truncated sum against truncating each part: the remainders dropped on both sides differ by less than 3
of the smaller divisor. -/
theorem two_mul_tdiv_add_near (x y : Int) :
    |2 * (x + y).tdiv 131072 - (x.tdiv 65536 + y.tdiv 65536)| ≤ 2 := by
  have hx := tdiv_remainder x 65536 (by norm_num)
  have hy := tdiv_remainder y 65536 (by norm_num)
  have hxy := tdiv_remainder (x + y) 131072 (by norm_num)
  rw [abs_le]
  omega

/-- Settles O37: an unconfigured bank is silent; otherwise both sides truncate the same products. -/
theorem superpositionWithinOne : Obligations.SuperpositionWithinOne := by
  unfold Obligations.SuperpositionWithinOne
  intro s i j hij alone both
  by_cases hsr : s.sr = 0#24
  · have hzero (m : BitVec 17) : (mixFrame (s.setAct m)).1 = 0 := by
      rw [mixFrame_silent (s.setAct m) (.inl hsr)]
    rw [show both = 0 from hzero _, show alone i = 0 from hzero _, show alone j = 0 from hzero _]
    norm_num
  · rw [show both = _ from mixFrame_two_voices s i j hij hsr, show alone i = _ from mixFrame_one_voice s i hsr,
      show alone j = _ from mixFrame_one_voice s j hsr]
    exact two_mul_tdiv_add_near _ _

end Sys2Proof.Machine
end

section
/-! Renders and the output queue (41_voice_bank.md R121, R126, R132, R133): frames leave in order, a render yields
exactly its count and ends within it, and its frames are determined at its start. -/

namespace Sys2Proof.Machine

open Sys2Proof

/-! ## Frames in order (R133) -/

/-- HOST's pop is one step, which only moves the head frame. -/
theorem step_pops (s : State) (hturn : s.nextTurn = .pop) : step s = .next s.takeTurn.popFrame :=
  step_of_nextTurn s _ hturn

/-- From `s` to `t` the frames delivered and queued grow by at most one, at the end, and only in a frame step with
room. -/
def AppendsAtMostOneFrame (s t : State) : Prop :=
  ∃ fs : List Word, t.delivered = s.delivered ++ fs ∧ fs.length ≤ 1 ∧
    (fs ≠ [] → s.nextTurn = .eng ∧ s.rem ≠ 0#24 ∧ s.outq.length < s.outqDepth)

theorem appendsAtMostOneFrame_of_eq {s t : State} (h : t.delivered = s.delivered) : AppendsAtMostOneFrame s t :=
  ⟨[], by simpa using h, by simp, fun hne => absurd rfl hne⟩

/-- Of the bank's writers but reset, only the frame step appends, and it appends one frame. -/
theorem bankStep_appends_at_most_one_frame (s u : State) (hstep : BankStep s u)
    (hreset : s.nextTurn.isReset = false) : AppendsAtMostOneFrame s u := by
  cases hstep with
  | frame hturn hrem hroom => exact ⟨_, frameStep_delivered s, by simp, fun _ => ⟨hturn, hrem, hroom⟩⟩
  | reset e c hturn => rw [hturn] at hreset; cases hreset
  | pop => exact appendsAtMostOneFrame_of_eq s.popFrame_delivered
  | quiet | cfg | render | voice | gain | relall => exact appendsAtMostOneFrame_of_eq rfl

/-- Settles O41: the pop by OUTQ's two forms; the rest by the bank's writers. -/
theorem framesLeaveInOrderAndNoneIsLost : Obligations.FramesLeaveInOrderAndNoneIsLost := by
  unfold Obligations.FramesLeaveInOrderAndNoneIsLost
  refine ⟨fun s hturn => ⟨fun w rest hq => ?_, fun hq => ?_⟩, fun s t h hreset => ?_⟩
  · rw [step_pops s hturn, State.popFrame_cons s.takeTurn w rest (by simpa using hq), State.takeTurn_popped]
  · rw [step_pops s hturn, State.popFrame_nil s.takeTurn (by simpa using hq)]
  · obtain ⟨u, hstep, hstored⟩ := bankStep_of_step s t h
    rw [State.delivered_of_stored_eq hstored]
    exact bankStep_appends_at_most_one_frame s u hstep hreset

/-! ## The hold (R121, R173, R208) -/

theorem State.popFrame_outq_length (s : State) : s.popFrame.outq.length = s.outq.length - 1 := by
  cases hq : s.outq with
  | nil => rw [State.popFrame_nil s hq, hq]; rfl
  | cons w rest => rw [State.popFrame_cons s w rest hq]; rfl

@[simp] theorem State.takeTurn_delivered (s : State) : s.takeTurn.delivered = s.delivered := by
  simp [State.delivered]

theorem State.takeTurn_sched_of_cons (s : State) (τ : Turn) (ts : List Turn) (h : s.sched = τ :: ts) :
    s.takeTurn.sched = ts := by rw [State.takeTurn_of_cons s τ ts h]

/-- Settles O45: ENG's first turn holds, the pop makes room, and ENG's second turn is a frame step. -/
theorem popLiftsTheHold : Obligations.PopLiftsTheHold := by
  unfold Obligations.PopLiftsTheHold
  intro s ts hsched hrem hfull hdepth
  have hheld : s.takeTurn.sched = .pop :: .eng :: ts := State.takeTurn_sched_of_cons s _ _ hsched
  have hpopped : s.takeTurn.takeTurn.popFrame.sched = .eng :: ts := by
    rw [State.popFrame_sched, State.takeTurn_sched_of_cons _ _ _ hheld]
  have hlength : s.takeTurn.takeTurn.popFrame.outq.length + 1 = s.outqDepth := by
    rw [State.popFrame_outq_length, State.takeTurn_outq, State.takeTurn_outq]
    omega
  have hhold := step_holds s (State.nextTurn_of_cons _ _ _ hsched) hrem hfull.ge
  have hpop := step_pops _ (State.nextTurn_of_cons _ _ _ hheld)
  have hframe := step_renders _ (State.nextTurn_of_cons _ _ _ hpopped) (by simpa using hrem)
    (by rw [State.popFrame_outqDepth, State.takeTurn_outqDepth, State.takeTurn_outqDepth]; omega)
  have hrun : Sys2Proof.core.run 3 s = .next (frameStep s.takeTurn.takeTurn.popFrame.takeTurn) := by
    rw [run_succ_of_step _ _ _ hhold, run_succ_of_step _ _ _ hpop, run_succ_of_step _ _ _ hframe]
    rfl
  have hdelivered : s.takeTurn.takeTurn.popFrame.takeTurn.delivered = s.delivered := by
    rw [State.takeTurn_delivered, State.delivered, State.popFrame_delivered]
    simp [State.delivered]
  refine ⟨_, _, hrun, (frameStep_delivered _).trans (congrArg (· ++ _) hdelivered), ?_, ?_⟩
  · rw [frameStep_outq, List.length_append, List.length_singleton, State.takeTurn_outq, hlength]
  · simp only [frameStep_rem, State.takeTurn_rem, State.popFrame_rem]
    bv_omega

/-! ## Scripts without a reset and without an engine word (R61, R126) -/

/-- The script `ts` is what `s` runs next; none of its turns is a reset or offers an engine word, and none waits. -/
structure RenderScript (ts : List Turn) (s : State) : Prop where
  sched : s.sched = ts
  engIn : s.engIn = []
  quiet : ∀ τ ∈ ts, τ.isReset = false ∧ τ.offersEngine = false

theorem step_leaves_sched_tail (s t : State) (τ : Turn) (ts : List Turn) (hsched : s.sched = τ :: ts)
    (h : step s = .next t) : t.sched = ts := by
  rw [step_of_sched s τ ts hsched] at h
  exact congrArg State.sched (Host.Outcome.next.inj (h.symm.trans (runTurn_sched τ { s with sched := ts } t ts h)))

/-- The engine port's waiting words stay none unless HOST offers one there. -/
theorem step_keeps_engIn_empty (s t : State) (h : step s = .next t) (hin : s.engIn = [])
    (hreset : s.nextTurn.isReset = false) (hoffer : s.nextTurn.offersEngine = false) : t.engIn = [] := by
  rcases step_cases s t h with ⟨-, heng⟩ | ⟨-, hctl⟩ | ⟨a, -, rfl⟩ | ⟨-, rfl⟩ | ⟨p, w, hturn, rfl⟩ |
    ⟨e, c, hturn, -⟩
  · rcases engTurn_cases _ _ heng with ⟨-, -, rfl⟩ | ⟨w, rest, -, hwaiting, -⟩ | ⟨-, -, rfl⟩ |
      ⟨-, -, rfl⟩
    · simpa using hin
    · simp [hin] at hwaiting
    · simpa using hin
    · simpa using hin
  · simpa [hin] using ctlTurn_keeps_engIn _ _ hctl
  · simpa using hin
  · simpa using hin
  · cases p with
    | engine => rw [hturn] at hoffer; cases hoffer
    | control => simpa using hin
  · rw [hturn] at hreset; cases hreset

/-- One step of such a script accounts for its frames and goes on with the rest of the script. -/
theorem renderScript_step (s : State) (τ : Turn) (ts : List Turn) (hs : RenderScript (τ :: ts) s) :
    ∃ u, step s = .next u ∧ RenderScript ts u ∧ FramesAccounted s u := by
  obtain ⟨hsched, hin, hquiet⟩ := hs
  obtain ⟨hreset, hoffer⟩ := hquiet τ List.mem_cons_self
  rw [← State.nextTurn_of_cons s τ ts hsched] at hreset hoffer
  obtain ⟨u, hu⟩ : ∃ u, step s = .next u := runTurn_total _ _
  exact ⟨u, hu, ⟨step_leaves_sched_tail s u τ ts hsched hu, step_keeps_engIn_empty s u hu hin hreset hoffer,
    fun σ hσ => hquiet σ (List.mem_cons_of_mem τ hσ)⟩, step_accounts_frames s u hu hreset (.inr hin)⟩

theorem framesAccounted_trans {s u t : State} (hsu : FramesAccounted s u) (hut : FramesAccounted u t) :
    FramesAccounted s t := by
  obtain ⟨fs, hfs, hsum⟩ := hsu
  obtain ⟨gs, hgs, hsum'⟩ := hut
  refine ⟨fs ++ gs, by rw [hgs, hfs, List.append_assoc], ?_⟩
  rw [List.length_append]
  omega

/-- The run of such a script completes and accounts for its frames, by induction on the script. -/
theorem renderScript_run (ts : List Turn) (s : State) (hs : RenderScript ts s) :
    ∃ t, Sys2Proof.core.run ts.length s = .next t ∧ FramesAccounted s t := by
  induction ts generalizing s with
  | nil => exact ⟨s, rfl, framesAccounted_of_eq rfl rfl⟩
  | cons τ ts ih =>
    obtain ⟨u, hu, hrest, hsu⟩ := renderScript_step s τ ts hs
    obtain ⟨t, ht, hut⟩ := ih u hrest
    exact ⟨t, (run_succ_of_step s u _ hu).trans ht, framesAccounted_trans hsu hut⟩

/-- Settles O43: the run's frames are accounted for. -/
theorem renderYieldsExactlyItsCount : Obligations.RenderYieldsExactlyItsCount := by
  unfold Obligations.RenderYieldsExactlyItsCount
  intro ts s t hsched hin hquiet hrun
  obtain ⟨t', hrun', hframes⟩ := renderScript_run ts s ⟨hsched, hin, hquiet⟩
  cases hrun.symm.trans hrun'
  exact hframes

/-! ## Renders end (R126) -/

/-- But for RENDER, no writer of the bank raises the frames queued and still due. -/
theorem bankStep_queued_and_due (s u : State) (hstep : BankStep s u)
    (hnorender : s.rem ≠ 0#24 ∨ s.engIn = []) :
    u.outq.length + u.rem.toNat ≤ s.outq.length + s.rem.toNat := by
  cases hstep with
  | frame _ hrem =>
    rw [frameStep_outq, frameStep_rem, List.length_append, List.length_singleton]
    bv_omega
  | render w rest n _ hrem hin => simp [hrem, hin] at hnorender
  | pop => rw [State.popFrame_outq_length, State.popFrame_rem]; omega
  | reset e c => simp
  | quiet | cfg | voice | gain | relall => exact le_refl _

/-- ENG's turn takes one frame off a render that has room for its frames, and idles once it is over. -/
theorem step_eng_lowers_rem (s u : State) (h : step s = .next u) (hturn : s.nextTurn = .eng)
    (hin : s.engIn = []) (hroom : s.outq.length + s.rem.toNat ≤ s.outqDepth) :
    u.rem.toNat = s.rem.toNat - 1 := by
  by_cases hrem : s.rem = 0#24
  · have hidle : step s = .next s.takeTurn :=
      (step_of_nextTurn s _ hturn).trans (engTurn_idle _ (by simpa using hrem) (by simpa using hin))
    cases h.symm.trans hidle
    simp [hrem]
  · cases h.symm.trans (step_renders s hturn hrem (by bv_omega))
    rw [frameStep_rem, State.takeTurn_rem]
    bv_omega

/-- Each step keeps room for the frames still due, and enough of ENG's turns for them in the rest of the script. -/
theorem renderScript_step_keeps_room_and_turns (s u : State) (τ : Turn) (ts : List Turn)
    (hs : RenderScript (τ :: ts) s) (hu : step s = .next u) (hframes : FramesAccounted s u)
    (hroom : s.outq.length + s.rem.toNat ≤ s.outqDepth) (hturns : s.rem.toNat ≤ (τ :: ts).count .eng) :
    u.outq.length + u.rem.toNat ≤ u.outqDepth ∧ u.rem.toNat ≤ ts.count .eng := by
  constructor
  · obtain ⟨v, hstep, hstored⟩ := bankStep_of_step s u hu
    obtain ⟨-, -, -, -, -, hrem, houtq⟩ := State.elements_of_stored_eq hstored
    rw [hrem, houtq, (buildConstantsNeverChange s u hu).2]
    exact (bankStep_queued_and_due s v hstep (.inr hs.engIn)).trans hroom
  · by_cases hτ : τ = .eng
    · subst hτ
      rw [List.count_cons_self] at hturns
      rw [step_eng_lowers_rem s u hu (State.nextTurn_of_cons s _ ts hs.sched) hs.engIn hroom]
      omega
    · rw [List.count_cons_of_ne hτ] at hturns
      obtain ⟨fs, -, hsum⟩ := hframes
      omega

/-- With room for its frames and as many of ENG's turns in the script, a render ends, by induction on the script. -/
theorem renderScript_run_ends (ts : List Turn) (s t : State) (hs : RenderScript ts s)
    (hroom : s.outq.length + s.rem.toNat ≤ s.outqDepth) (hturns : s.rem.toNat ≤ ts.count .eng)
    (hrun : Sys2Proof.core.run ts.length s = .next t) : t.rem = 0#24 := by
  induction ts generalizing s with
  | nil =>
    cases hrun
    exact BitVec.eq_of_toNat_eq (Nat.le_zero.mp hturns)
  | cons τ ts ih =>
    obtain ⟨u, hu, hrest, hframes⟩ := renderScript_step s τ ts hs
    obtain ⟨hroom', hturns'⟩ := renderScript_step_keeps_room_and_turns s u τ ts hs hu hframes hroom hturns
    exact ih u hrest hroom' hturns' ((run_succ_of_step s u _ hu).symm.trans hrun)

/-- Settles O44: the run's frames are accounted for, and none is due at its end. -/
theorem renderEndsWithinItsCount : Obligations.RenderEndsWithinItsCount := by
  unfold Obligations.RenderEndsWithinItsCount
  intro ts s hsched hin hquiet hroom hturns
  have hs : RenderScript ts s := ⟨hsched, hin, hquiet⟩
  obtain ⟨t, hrun, fs, hfs, hsum⟩ := renderScript_run ts s hs
  have hrem := renderScript_run_ends ts s t hs hroom hturns hrun
  rw [hrem] at hsum
  exact ⟨t, fs, hrun, hrem, hfs, hsum⟩

/-! ## Determinism (R132) -/

/-- The two states agree on what a render's frames are made from. -/
structure SameVoices (s u : State) : Prop where
  sr : s.sr = u.sr
  ftw : s.ftw = u.ftw
  ph : s.ph = u.ph
  act : s.act = u.act
  gain : s.gain = u.gain

theorem SameVoices.sample_eq {s u : State} (h : SameVoices s u) : (mixFrame s).1 = (mixFrame u).1 :=
  silentVoicesCannotReachTheFrame s u (by rw [h.sr]) h.act h.gain fun i _ => by rw [h.ph]

theorem SameVoices.after_frameStep {s u : State} (h : SameVoices s u) :
    SameVoices (frameStep s) (frameStep u) where
  sr := by simpa using h.sr
  ftw := by simpa using h.ftw
  ph := by
    rw [frameStep_ph, frameStep_ph]
    refine Vector.ext fun i hi => ?_
    have hs := mixFrame_ph s ⟨i, hi⟩
    rw [h.sr, h.ftw, h.ph, h.act, ← mixFrame_ph u ⟨i, hi⟩] at hs
    exact hs
  act := by simpa using h.act
  gain := by simpa using h.gain

theorem SameVoices.after_frameSteps {s u : State} (h : SameVoices s u) (k : Nat) :
    SameVoices (frameStep^[k] s) (frameStep^[k] u) := by
  induction k generalizing s u with
  | zero => exact h
  | succ k ih => exact ih h.after_frameStep

/-- The `i`-th frame a render from `s` makes, when nothing disturbs it. -/
def renderFrame (s : State) (i : Nat) : Word := frameWord (mixFrame (frameStep^[i] s)).1

theorem renderFrame_succ (s : State) (i : Nat) : renderFrame s (i + 1) = renderFrame (frameStep s) i := rfl

theorem SameVoices.renderFrame_eq {s u : State} (h : SameVoices s u) (i : Nat) :
    renderFrame s i = renderFrame u i := congrArg frameWord (h.after_frameSteps i).sample_eq

theorem frameStep_iterate_outq (k : Nat) (s : State) :
    (frameStep^[k] s).outq = s.outq ++ (List.range k).map (renderFrame s) := by
  induction k with
  | zero => simp
  | succ k ih =>
    rw [Function.iterate_succ_apply', frameStep_outq, ih, List.range_succ, List.map_append, List.append_assoc]
    rfl

/-- An undisturbed step either appends no frame and, during a render, leaves what its frames are made from; or it is
the render's next frame step. -/
theorem undisturbed_step_cases (s t : State) (hq : s.Undisturbed) (h : step s = .next t) :
    (t.delivered = s.delivered ∧ (s.rem ≠ 0#24 → SameVoices t s ∧ t.rem = s.rem)) ∨
      (t.delivered = s.delivered ++ [renderFrame s 0] ∧ SameVoices t (frameStep s) ∧
        t.rem.toNat + 1 = s.rem.toNat) := by
  obtain ⟨hreset, hcontrol⟩ := hq
  obtain ⟨u, hstep, hstored⟩ := bankStep_of_step s t h
  obtain ⟨hsr, hftw, hph, hact, hgain, hrem, -⟩ := State.elements_of_stored_eq hstored
  rw [State.delivered_of_stored_eq hstored]
  cases hstep with
  | quiet => exact .inl ⟨rfl, fun _ => ⟨⟨hsr, hftw, hph, hact, hgain⟩, hrem⟩⟩
  | cfg w rest rate _ hzero => exact .inl ⟨rfl, fun hne => absurd hzero hne⟩
  | render w rest n _ hzero => exact .inl ⟨rfl, fun hne => absurd hzero hne⟩
  | frame _ hne =>
    refine .inr ⟨frameStep_delivered s, ⟨hsr, hftw, hph, hact, hgain⟩, ?_⟩
    rw [hrem, frameStep_rem]
    bv_omega
  | voice _ _ _ _ hturn | gain _ _ _ hturn | relall _ _ hturn =>
    obtain ⟨hact', hgain'⟩ := hcontrol hturn t h
    exact .inl ⟨rfl, fun _ => ⟨⟨hsr, hftw, hph, hact', hgain'⟩, hrem⟩⟩
  | pop =>
    simp only [State.popFrame_sr, State.popFrame_ftw, State.popFrame_ph, State.popFrame_act,
      State.popFrame_gain, State.popFrame_rem] at hsr hftw hph hact hgain hrem
    exact .inl ⟨s.popFrame_delivered, fun _ => ⟨⟨hsr, hftw, hph, hact, hgain⟩, hrem⟩⟩
  | reset e c hturn => rw [hturn] at hreset; cases hreset

/-- An undisturbed run appends the frames of the render in progress at its start, in order, by induction on the run. -/
theorem undisturbedRun_renders (s t : State) (hrun : UndisturbedRun s t) :
    ∃ fs : List Word, t.delivered = s.delivered ++ fs ∧
      ∀ (i : Nat) (w : Word), i < s.rem.toNat → fs[i]? = some w → w = renderFrame s i := by
  induction hrun with
  | nil s => exact ⟨[], by simp, by simp⟩
  | cons s u t hq h _ ih =>
    obtain ⟨fs, hfs, hframes⟩ := ih
    rcases undisturbed_step_cases s u hq h with ⟨hdel, hsame⟩ | ⟨hdel, hvoices, hrem⟩
    · refine ⟨fs, by rw [hfs, hdel], fun i w hi hw => ?_⟩
      obtain ⟨hvoices, hrem⟩ := hsame fun hzero => by simp [hzero] at hi
      rw [← hvoices.renderFrame_eq]
      exact hframes i w (by rwa [hrem]) hw
    · refine ⟨renderFrame s 0 :: fs, by rw [hfs, hdel, List.append_assoc]; rfl, fun i w hi hw => ?_⟩
      cases i with
      | zero => exact (Option.some.inj hw).symm
      | succ i =>
        rw [renderFrame_succ, ← hvoices.renderFrame_eq]
        exact hframes i w (by omega) hw

/-- Settles O40: the i-th frame is `renderFrame` of the start, which agreeing states share. -/
theorem renderedFramesAreDetermined : Obligations.RenderedFramesAreDetermined := by
  unfold Obligations.RenderedFramesAreDetermined
  intro s u hsr hftw hph hact hgain
  have hsame : SameVoices s u := ⟨hsr, hftw, hph, hact, hgain⟩
  refine ⟨fun k => ⟨(List.range k).map (renderFrame s), by simp, frameStep_iterate_outq k s, ?_,
    (hsame.after_frameSteps k).ph⟩, fun t v hst huv => ?_⟩
  · rw [frameStep_iterate_outq, funext hsame.renderFrame_eq]
  · obtain ⟨fs, hfs, hframes⟩ := undisturbedRun_renders s t hst
    obtain ⟨gs, hgs, hframes'⟩ := undisturbedRun_renders u v huv
    refine ⟨fs, gs, hfs, hgs, fun i w x hi hi' hw hx => ?_⟩
    rw [hframes i w hi hw, hframes' i x hi' hx, hsame.renderFrame_eq]

end Sys2Proof.Machine
end

section
/-! The read-back port (42_readback.md R150 to R153): RD as an equation, and one equation per register of the map. -/

namespace Sys2Proof.Machine

open Sys2Proof

/-- RD answers the register map's value, and changes nothing else (R150). -/
theorem exec_rd (a : Nat) (s : State) : exec (.rd a) s = .next (s.returnRead (regRead s a)) := rfl

/-- No register of the map shows what was returned before (R151). -/
theorem regRead_returnRead (s : State) (v : Word) (a : Nat) : regRead (s.returnRead v) a = regRead s a := rfl

/-- RD after any returned value answers what it would have answered before (R150). -/
theorem exec_rd_returnRead (a : Nat) (s : State) (v : Word) :
    exec (.rd a) (s.returnRead v) = .next ((s.returnRead v).returnRead (regRead s a)) := by
  rw [exec_rd, regRead_returnRead]

/-! ## The registers below 0x10 (R34, R36, R151) -/

theorem regRead_id (s : State) : regRead s 0x00 = 0x01200A11#32 := rfl

theorem regRead_sr_toNat (s : State) : (regRead s 0x02).toNat = s.sr.toNat :=
  BitVec.toNat_setWidth_of_le (show 24 ≤ 32 by decide)

theorem regRead_gain_toNat (s : State) : (regRead s 0x03).toNat = s.gain.toNat :=
  BitVec.toNat_setWidth_of_le (show 17 ≤ 32 by decide)

theorem regRead_act_toNat (s : State) : (regRead s 0x04).toNat = s.act.toNat :=
  BitVec.toNat_setWidth_of_le (show 17 ≤ 32 by decide)

theorem regRead_rem_toNat (s : State) : (regRead s 0x05).toNat = s.rem.toNat :=
  BitVec.toNat_setWidth_of_le (show 24 ≤ 32 by decide)

/-- NACT is the number of active voices: at most 17, so it fits the word (R36). -/
theorem regRead_nact_toNat (s : State) : (regRead s 0x06).toNat = s.activeVoices.card := by
  have hle := nActive_le s
  rw [← nActive_eq_card]
  exact (BitVec.toNat_ofNat _ 32).trans (Nat.mod_eq_of_lt (by omega))

theorem regRead_qcount_toNat (s : State) (h : s.outq.length < 4294967296) :
    (regRead s 0x07).toNat = s.outq.length :=
  (BitVec.toNat_ofNat _ 32).trans (Nat.mod_eq_of_lt h)

/-! ## The arrays, and the reserved ranges (R151, R152) -/

theorem voiceReg_voice (v : VoiceRegs) (i : Voice) : voiceReg v i.val = v[i] := dif_pos i.isLt

theorem voiceReg_past_end (v : VoiceRegs) (k : Nat) (h : 17 ≤ k) : voiceReg v k = 0#32 := dif_neg (by omega)

theorem regRead_ftw (s : State) (i : Voice) : regRead s (0x30 + i.val) = s.ftw[i] := by
  have hi := i.isLt
  rw [regRead, if_neg (by omega), if_neg (by omega), if_pos (by omega), Nat.add_sub_cancel_left, voiceReg_voice]

theorem regRead_ph (s : State) (i : Voice) : regRead s (0x50 + i.val) = s.ph[i] := by
  rw [regRead, if_neg (by omega), if_neg (by omega), if_neg (by omega), Nat.add_sub_cancel_left, voiceReg_voice]

/-- The addresses of R152, each range the gap behind one part of the map. -/
theorem regRead_reserved (s : State) (a : Nat)
    (h : (0x08 ≤ a ∧ a ≤ 0x0F) ∨ (0x21 ≤ a ∧ a ≤ 0x2F) ∨ (0x41 ≤ a ∧ a ≤ 0x4F) ∨ 0x61 ≤ a) :
    regRead s a = 0#32 := by
  unfold regRead
  rcases h with ⟨hlo, hhi⟩ | ⟨hlo, hhi⟩ | ⟨hlo, hhi⟩ | hlo
  · rw [if_pos (by omega), lowReg]
    repeat rw [if_neg (by omega)]
  · rw [if_neg (by omega), if_pos (by omega), voiceReg_past_end _ _ (by omega)]
  · rw [if_neg (by omega), if_neg (by omega), if_pos (by omega), voiceReg_past_end _ _ (by omega)]
  · rw [if_neg (by omega), if_neg (by omega), if_neg (by omega), voiceReg_past_end _ _ (by omega)]

/-- Settles O24: RD's equation, and the map's, one per register. -/
theorem readbackReturnsTheMappedRegister : Obligations.ReadbackReturnsTheMappedRegister := by
  unfold Obligations.ReadbackReturnsTheMappedRegister
  intro s a _
  refine ⟨regRead s a, exec_rd a s, exec_rd_returnRead a s _, ?_, ?_, ?_, ?_, ?_, ?_, ?_, ?_, ?_, ?_, ?_,
    regRead_reserved s a⟩
  · rintro rfl; exact regRead_id s
  · rintro rfl; exact regRead_status_toNat s
  · rintro rfl; exact regRead_sr_toNat s
  · rintro rfl; exact regRead_gain_toNat s
  · rintro rfl; exact regRead_act_toNat s
  · rintro rfl; exact regRead_rem_toNat s
  · rintro rfl; exact regRead_nact_toNat s
  · rintro rfl; exact regRead_qcount_toNat s
  · rintro i rfl; exact regRead_freq s i
  · rintro i rfl; exact regRead_ftw s i
  · rintro i rfl; exact regRead_ph s i

end Sys2Proof.Machine
end

section
/-! Exceptions (60_exceptions.md R170): the bank raises none, so every step answers a next state. -/

namespace Sys2Proof.Machine

open Sys2Proof

/-- A step is the chosen turn, and every turn of every agent answers a next state (R8, R170). -/
theorem step_total (s : State) : ∃ t, step s = .next t := by
  rw [step_of_nextTurn s s.nextTurn rfl]
  exact runTurn_total s.nextTurn s.takeTurn

/-- Settles O11: no command faults, and no turn, hence no step, does. -/
theorem nothingFaults : Obligations.NothingFaults := by
  unfold Obligations.NothingFaults
  exact ⟨exec_total, step_total⟩

end Sys2Proof.Machine
end

section
/-! The reset input (70_reset_and_hazards.md R200): every stored element cleared, and the word being accepted
discarded. -/

namespace Sys2Proof.Machine

open Sys2Proof

theorem resetTurn_ftw_voice (e c : Bool) (s : State) (i : Voice) : (resetTurn e c s).ftw[i] = 0#32 := by
  rw [resetTurn_ftw]
  exact Vector.getElem_replicate i.isLt

theorem resetTurn_ph_voice (e c : Bool) (s : State) (i : Voice) : (resetTurn e c s).ph[i] = 0#32 := by
  rw [resetTurn_ph]
  exact Vector.getElem_replicate i.isLt

/-- ENG can have been accepting a word only with no render in progress (R121). -/
theorem resetTurn_discards_engine_word (c : Bool) (s : State) (hrem : s.rem = 0#24) :
    (resetTurn true c s).engIn = s.engIn.tail := by
  simp [dropAccepting, hrem]

theorem resetTurn_discards_control_word (e : Bool) (s : State) :
    (resetTurn e true s).ctlIn = s.ctlIn.tail := by
  simp [dropAccepting]

/-- Settles O53: the step is the reset turn, read off field by field; choosing the turn moves none of the fields. -/
theorem resetClearsTheBank : Obligations.ResetClearsTheBank := by
  unfold Obligations.ResetClearsTheBank
  intro s e c hturn
  refine ⟨resetTurn e c s.takeTurn, step_reset s e c hturn, resetTurn_sr e c _,
    fun i => ⟨resetTurn_ftw_voice e c _ i, resetTurn_ph_voice e c _ i⟩, resetTurn_act e c _,
    resetTurn_gain e c _, resetTurn_rem e c _, resetTurn_outq e c _, ?freq, ?depth, regRead_id _, ?eng, ?ctl⟩
  case freq => rw [resetTurn_freq, State.takeTurn_freq]
  case depth => rw [resetTurn_outqDepth, State.takeTurn_outqDepth]
  case eng =>
    rintro rfl hrem
    rw [resetTurn_discards_engine_word c _ ((State.takeTurn_rem s).trans hrem), State.takeTurn_engIn]
  case ctl =>
    rintro rfl
    rw [resetTurn_discards_control_word, State.takeTurn_ctlIn]

end Sys2Proof.Machine
end
